-- ==== Sys2Proof/Word.lean ====
section
/-! DEFINITION. The bit-vector types of the block (00_scope.md R10): a byte, a 128-bit block, a
64-bit command word, and the 16-bit field of a command word. -/

namespace Sys2Proof

/-- A tower-field byte or a lane (R110): 8 bits. -/
abbrev Byte := BitVec 8

/-- The unit of `MEM` (00_scope.md R6, R19): 128 bits. -/
abbrev Block := BitVec 128

/-- A command word (30_encoding.md R60): 64 bits. -/
abbrev Command := BitVec 64

/-- A 16-bit operand field of a command word (30_encoding.md R60). -/
abbrev Field := BitVec 16

end Sys2Proof
end

