-- ==== Sys2Proof/Syntax.lean ====
section
/-! DEFINITION. The eleven commands of 30_encoding.md R62, one constructor per row of
opcode_table.json, operands in the order `A`, `B`, `C` of the fields used (R66). Every operand is the
content of its field, unsigned (R61). -/

namespace Sys2Proof

/-- The table select of `LLKUP` (R62): 0 `LOG_TABLE`, 1 `EXP_TABLE`, 2 `ALPHA_MAP`. The reserved select
3 is no term of this type: a word that holds it is illegal (R63 (e)). -/
inductive TableSel where
  | log | exp | alpha
deriving DecidableEq, Repr

/-- A command. -/
inductive Instr where
  /-- R85: forward transpose in place. -/
  | trn (base stride : Field)
  /-- R86: forward transpose into a destination, OR-accumulating. -/
  | trnd (dst src stride : Field)
  /-- R87: inverse transpose in place. -/
  | trnr (base stride : Field)
  /-- R102: byte-slice a batch. -/
  | bsl (dst src : Field)
  /-- R103: undo a byte-slice. -/
  | ubsl (dst src : Field)
  /-- R118: scalar multiply. -/
  | gfmul (lhs rhs : Byte)
  /-- R120: scalar multiply by the extension constant. -/
  | gfmulc (rhs : Byte)
  /-- R134: 16 table lookups. -/
  | llkup (dst src : Field) (table : TableSel)
  /-- R137: 16 products. -/
  | pmul (dst a b : Field)
  /-- R138: 16 products by the extension constant. -/
  | pmulc (dst src : Field)
  /-- R152: 64 element-wise products. -/
  | bmul64 (dst a b : Field)
deriving DecidableEq, Repr

/-- The mnemonic of R62. -/
def Instr.mnemonic : Instr → String
  | .trn _ _ => "TRN"
  | .trnd _ _ _ => "TRND"
  | .trnr _ _ => "TRNR"
  | .bsl _ _ => "BSL"
  | .ubsl _ _ => "UBSL"
  | .gfmul _ _ => "GFMUL"
  | .gfmulc _ => "GFMULC"
  | .llkup _ _ _ => "LLKUP"
  | .pmul _ _ _ => "PMUL"
  | .pmulc _ _ => "PMULC"
  | .bmul64 _ _ _ => "BMUL64"

end Sys2Proof
end

