-- ==== Sys2Proof/Decode.lean ====
section
/-! DEFINITION. The command word of 30_encoding.md: the format `CW64` (R60), the opcode map (R62), the
illegal words (R63), the decoder and, after it, the encoder; the opcode table with its match and mask
numbers; the assembler's text of a command (R66). -/

namespace Sys2Proof

/-- The five fields of the format `CW64` (R60). -/
structure Cw64 where
  op : Byte
  z : Byte
  a : Field
  b : Field
  c : Field
deriving DecidableEq, Repr

/-- The fields of a word: `OP` 7:0, `Z` 15:8, `A` 31:16, `B` 47:32, `C` 63:48 (R60). -/
def Cw64.ofWord (w : Command) : Cw64 where
  op := w.extractLsb' 0 8
  z := w.extractLsb' 8 8
  a := w.extractLsb' 16 16
  b := w.extractLsb' 32 16
  c := w.extractLsb' 48 16

/-- The word of five fields (R60). -/
def Cw64.word (f : Cw64) : Command := f.c ++ f.b ++ f.a ++ f.z ++ f.op

/-- Why a word is illegal (R63 (a) to (e)). The names are the model's; the block reports all of them as
the one cause `ILLEGAL_COMMAND` (log 12). -/
inductive Illegal where
  /-- (a) `OP` is not one of the eleven values. -/
  | unknownOp
  /-- (b) `Z` is not zero. -/
  | zNotZero
  /-- (c) a field that the command's row shows as 0 is not zero. -/
  | unusedFieldNotZero
  /-- (d) bits 15:8 of a byte immediate field are not zero. -/
  | byteTooWide
  /-- (e) bits 15:2 of `LLKUP`'s `C` are not zero, or the table select is 3. -/
  | badTableSelect
deriving DecidableEq, Repr

/-- The low byte of a byte immediate field (R61). -/
def byteImmediate (f : Field) : Byte := f.extractLsb' 0 8

/-- Bits 15:8 of a byte immediate field are zero (R61). -/
def isByte (f : Field) : Bool := decide (f.extractLsb' 8 8 = 0)

/-- The table an `LLKUP` selects by its `C` field: 0, 1 or 2 (R61, R62). -/
def tableSelect (c : Field) : Option TableSel :=
  match c.toNat with
  | 0 => some .log
  | 1 => some .exp
  | 2 => some .alpha
  | _ => none

/-- The commands of R62 by opcode, the fields other than `OP` and `Z` checked (R63 (c) to (e)). -/
def decodeFields (f : Cw64) : Except Illegal Instr :=
  match f.op.toNat with
  | 0x01 => if f.b = 0 then .ok (.trn f.a f.c) else .error .unusedFieldNotZero
  | 0x02 => .ok (.trnd f.a f.b f.c)
  | 0x03 => if f.b = 0 then .ok (.trnr f.a f.c) else .error .unusedFieldNotZero
  | 0x08 => if f.c = 0 then .ok (.bsl f.a f.b) else .error .unusedFieldNotZero
  | 0x09 => if f.c = 0 then .ok (.ubsl f.a f.b) else .error .unusedFieldNotZero
  | 0x10 =>
    if f.a = 0 then
      if isByte f.b && isByte f.c then .ok (.gfmul (byteImmediate f.b) (byteImmediate f.c))
      else .error .byteTooWide
    else .error .unusedFieldNotZero
  | 0x11 =>
    if f.a = 0 ∧ f.c = 0 then
      if isByte f.b then .ok (.gfmulc (byteImmediate f.b)) else .error .byteTooWide
    else .error .unusedFieldNotZero
  | 0x18 =>
    match tableSelect f.c with
    | some t => .ok (.llkup f.a f.b t)
    | none => .error .badTableSelect
  | 0x19 => .ok (.pmul f.a f.b f.c)
  | 0x1A => if f.c = 0 then .ok (.pmulc f.a f.b) else .error .unusedFieldNotZero
  | 0x20 => .ok (.bmul64 f.a f.b f.c)
  | _ => .error .unknownOp

/-- The decoder, total on the `2^64` words: the command of a legal word, or why the word is illegal
(R62, R63). It reads the word alone, in every state the same way (R65). -/
def decode (w : Command) : Except Illegal Instr :=
  if (Cw64.ofWord w).z = 0 then decodeFields (Cw64.ofWord w) else .error .zNotZero

/-- A word from bits numbered as opcode_table.json numbers them: a command is one 64-bit number, so the
number is the word; bits at and above `nbits` are 0 (log 16). -/
def tableWord (nbits w : Nat) : Command := BitVec.ofNat 64 (w % 2 ^ nbits)

/-- The instruction the decoder reads from an opcode-table word of `nbits` bits. -/
def decodeTableWord (nbits w : Nat) : Option Instr := (decode (tableWord nbits w)).toOption

/-- The `C` field of a table select (R62). -/
def TableSel.field : TableSel → Field
  | .log => 0
  | .exp => 1
  | .alpha => 2

/-- The fields of a command, by its row of R62. -/
def encodeFields : Instr → Cw64
  | .trn base stride => { op := 0x01, z := 0, a := base, b := 0, c := stride }
  | .trnd dst src stride => { op := 0x02, z := 0, a := dst, b := src, c := stride }
  | .trnr base stride => { op := 0x03, z := 0, a := base, b := 0, c := stride }
  | .bsl dst src => { op := 0x08, z := 0, a := dst, b := src, c := 0 }
  | .ubsl dst src => { op := 0x09, z := 0, a := dst, b := src, c := 0 }
  | .gfmul lhs rhs => { op := 0x10, z := 0, a := 0, b := lhs.setWidth 16, c := rhs.setWidth 16 }
  | .gfmulc rhs => { op := 0x11, z := 0, a := 0, b := rhs.setWidth 16, c := 0 }
  | .llkup dst src table => { op := 0x18, z := 0, a := dst, b := src, c := table.field }
  | .pmul dst a b => { op := 0x19, z := 0, a := dst, b := a, c := b }
  | .pmulc dst src => { op := 0x1A, z := 0, a := dst, b := src, c := 0 }
  | .bmul64 dst a b => { op := 0x20, z := 0, a := dst, b := a, c := b }

/-- The word of a command (R60, R62). -/
def encode (i : Instr) : Command := (encodeFields i).word

/-- One row of the opcode map (R62). -/
structure OpcodeRow where
  mnemonic : String
  pattern : Command
  mask : Command
deriving DecidableEq, Repr

/-- A word is this row's command when `cw AND mask = match` (R62); `LLKUP` has the one constraint a mask
cannot express, a table select other than 3. -/
def OpcodeRow.matchesWord (r : OpcodeRow) (w : Command) : Bool :=
  decide (w &&& r.mask = r.pattern) &&
    (r.mnemonic != "LLKUP" || decide (w.extractLsb' 48 2 ≠ 3))

/-- The opcode map of R62, its match and mask columns. -/
def opcodeTable : List OpcodeRow :=
  [{ mnemonic := "TRN", pattern := 0x0000000000000001, mask := 0x0000FFFF0000FFFF },
   { mnemonic := "TRND", pattern := 0x0000000000000002, mask := 0x000000000000FFFF },
   { mnemonic := "TRNR", pattern := 0x0000000000000003, mask := 0x0000FFFF0000FFFF },
   { mnemonic := "BSL", pattern := 0x0000000000000008, mask := 0xFFFF00000000FFFF },
   { mnemonic := "UBSL", pattern := 0x0000000000000009, mask := 0xFFFF00000000FFFF },
   { mnemonic := "GFMUL", pattern := 0x0000000000000010, mask := 0xFF00FF00FFFFFFFF },
   { mnemonic := "GFMULC", pattern := 0x0000000000000011, mask := 0xFFFFFF00FFFFFFFF },
   { mnemonic := "LLKUP", pattern := 0x0000000000000018, mask := 0xFFFC00000000FFFF },
   { mnemonic := "PMUL", pattern := 0x0000000000000019, mask := 0x000000000000FFFF },
   { mnemonic := "PMULC", pattern := 0x000000000000001A, mask := 0xFFFF00000000FFFF },
   { mnemonic := "BMUL64", pattern := 0x0000000000000020, mask := 0x000000000000FFFF }]

/-- The name an assembler gives a table select (R66). -/
def TableSel.text : TableSel → String
  | .log => "LOG"
  | .exp => "EXP"
  | .alpha => "ALPHA"

/-- The operands of a command as R66 writes them, numbers in decimal (log 20). -/
def Instr.operandTexts : Instr → List String
  | .trn base stride => [toString base.toNat, toString stride.toNat]
  | .trnd dst src stride => [toString dst.toNat, toString src.toNat, toString stride.toNat]
  | .trnr base stride => [toString base.toNat, toString stride.toNat]
  | .bsl dst src => [toString dst.toNat, toString src.toNat]
  | .ubsl dst src => [toString dst.toNat, toString src.toNat]
  | .gfmul lhs rhs => [toString lhs.toNat, toString rhs.toNat]
  | .gfmulc rhs => [toString rhs.toNat]
  | .llkup dst src table => [toString dst.toNat, toString src.toNat, table.text]
  | .pmul dst a b => [toString dst.toNat, toString a.toNat, toString b.toNat]
  | .pmulc dst src => [toString dst.toNat, toString src.toNat]
  | .bmul64 dst a b => [toString dst.toNat, toString a.toNat, toString b.toNat]

/-- The assembler line of a command (R66): mnemonic, then the operands separated by commas. -/
def Instr.assembly (i : Instr) : String := i.mnemonic ++ " " ++ String.intercalate ", " i.operandTexts

end Sys2Proof
end

