-- ==== Sys2Proof/Config.lean ====
section
/-! DEFINITION. What one built block fixes (10_state.md R31): the word width, the size of `MEM`, the
constant tables, the tower product; the values and functions the spec leaves open; the reference
instantiation `REF` (92_eei_decisions.md, annex to D15). -/

namespace Sys2Proof

/-- The four word widths a block can be built for (00_scope.md R5). Another width is no term of this
type: such a model is not built (92_eei_decisions.md D32). -/
inductive WordWidth where
  | w8 | w16 | w32 | w64
deriving DecidableEq, Repr

/-- `W`, the number of bits of a word (R5). -/
def WordWidth.bits : WordWidth → Nat
  | .w8 => 8
  | .w16 => 16
  | .w32 => 32
  | .w64 => 64

/-- `WPB = WORDS_PER_BLOCK = 128 / W` (R5). -/
def WordWidth.wordsPerBlock : WordWidth → Nat
  | .w8 => 16
  | .w16 => 8
  | .w32 => 4
  | .w64 => 2

/-- `LOG2W = log2(W)` (R5). -/
def WordWidth.logBits : WordWidth → Nat
  | .w8 => 3
  | .w16 => 4
  | .w32 => 5
  | .w64 => 6

/-- One ROM table: 256 entries of 8 bits (10_state.md R23), as 16 rows of 16; row `r` column `c` is entry
`16 r + c` (92_eei_decisions.md, annex to D15). -/
abbrev Table := Vector (Vector Byte 16) 16

/-- Entry `x` of a table; the index is a data byte, so it is always inside (10_state.md R24). -/
def Table.at (t : Table) (x : Byte) : Byte :=
  (t[x.toNat / 16]'(by have := x.isLt; omega))[x.toNat % 16]'(by omega)

/-- A function of two blocks to one, written as plain data. Every such function has a formula (log 7). -/
inductive TowerFormula where
  /-- The first operand. -/
  | lhs
  /-- The second operand. -/
  | rhs
  | const (v : Block)
  | xor (f g : TowerFormula)
  /-- `f` where bit `n` of `c` is 1, else `g`. -/
  | select (n : Nat) (c f g : TowerFormula)
deriving DecidableEq, Repr

/-- The parameter `TOWER_MUL128` of one built block (44_batched_multiply.md R151), as plain data because
State holds the configuration (log 7). -/
inductive TowerMul where
  /-- The function numbered `n` of those that nothing is known of, `Config.unknownTower n`. -/
  | unknown (n : Nat)
  /-- A function supplied with the configuration. -/
  | formula (f : TowerFormula)
deriving DecidableEq, Repr

/-- The parameters of the step function (10_state.md R31): constants of one built block. -/
structure Config where
  /-- `W` (R5). -/
  width : WordWidth
  /-- `MEM_BLOCKS` (R7). -/
  memBlocks : Nat
  /-- `LOG_TABLE` (42_gf256_scalar.md R112 to R114). -/
  logTable : Table
  /-- `EXP_TABLE` (R111, R113, R115). -/
  expTable : Table
  /-- `ALPHA_MAP` (R116). -/
  alphaMap : Table
  /-- `ALPHA` (R116). -/
  alpha : Byte
  /-- `TOWER_MUL128` (00_scope.md R9, 44_batched_multiply.md R151). -/
  tower : TowerMul
deriving DecidableEq, Repr

/-- Functions that may be `TOWER_MUL128` (44_batched_multiply.md R151), one for each number: the spec leaves
the product open and forbids to guess it. No body, so nothing can be proved of a value (log 7). -/
opaque Config.unknownTower : Nat → Block → Block → Block

/-- The content of block `address` before anything has written it, after the reset numbered `epoch`
(10_state.md R32: "unspecified: any 128-bit value, possibly different at each address and after each
reset; stable until written"). A free value, with no body (log 3). DESIGN CHOICE: it is a function of the
two numbers alone, so not of what `MEM` held before the reset (log 24). -/
opaque Config.powerOnBlock : (epoch : Nat) → (address : Nat) → Block

/-- A row of a table from its 16 entries. -/
def tableRow (l : List Byte) (h : l.length = 16) : Vector Byte 16 := ⟨⟨l⟩, h⟩

/-- `EXP_TABLE` of `REF` (D15 annex). -/
def refExpTable : Table :=
  ⟨⟨[tableRow [0x01, 0x13, 0x43, 0x66, 0xAB, 0x8C, 0x60, 0xC6, 0x91, 0xCA, 0x59, 0xB2, 0x6A, 0x63, 0xF4, 0x53] rfl,
     tableRow [0x17, 0x0F, 0xFA, 0xBA, 0xEE, 0x87, 0xD6, 0xE0, 0x6E, 0x2F, 0x68, 0x42, 0x75, 0xE8, 0xEA, 0xCB] rfl,
     tableRow [0x4A, 0xF1, 0x0C, 0xC8, 0x78, 0x33, 0xD1, 0x9E, 0x30, 0xE3, 0x5C, 0xED, 0xB5, 0x14, 0x3D, 0x38] rfl,
     tableRow [0x67, 0xB8, 0xCF, 0x06, 0x6D, 0x1D, 0xAA, 0x9F, 0x23, 0xA0, 0x3A, 0x46, 0x39, 0x74, 0xFB, 0xA9] rfl,
     tableRow [0xAD, 0xE1, 0x7D, 0x6C, 0x0E, 0xE9, 0xF9, 0x88, 0x2C, 0x5A, 0x80, 0xA8, 0xBE, 0xA2, 0x1B, 0xC7] rfl,
     tableRow [0x82, 0x89, 0x3F, 0x19, 0xE6, 0x03, 0x32, 0xC2, 0xDD, 0x56, 0x48, 0xD0, 0x8D, 0x73, 0x85, 0xF7] rfl,
     tableRow [0x61, 0xD5, 0xD2, 0xAC, 0xF2, 0x3E, 0x0A, 0xA5, 0x65, 0x99, 0x4E, 0xBD, 0x90, 0xD9, 0x1A, 0xD4] rfl,
     tableRow [0xC1, 0xEF, 0x94, 0x95, 0x86, 0xC5, 0xA3, 0x08, 0x84, 0xE4, 0x22, 0xB3, 0x79, 0x20, 0x92, 0xF8] rfl,
     tableRow [0x9B, 0x6F, 0x3C, 0x2B, 0x24, 0xDE, 0x64, 0x8A, 0x0D, 0xDB, 0x3B, 0x55, 0x7A, 0x12, 0x50, 0x25] rfl,
     tableRow [0xCD, 0x27, 0xEC, 0xA6, 0x57, 0x5B, 0x93, 0xEB, 0xD8, 0x09, 0x97, 0xA7, 0x44, 0x18, 0xF5, 0x40] rfl,
     tableRow [0x54, 0x69, 0x51, 0x36, 0x8E, 0x41, 0x47, 0x2A, 0x37, 0x9D, 0x02, 0x21, 0x81, 0xBB, 0xFD, 0xC4] rfl,
     tableRow [0xB0, 0x4B, 0xE2, 0x4F, 0xAE, 0xD3, 0xBF, 0xB1, 0x58, 0xA1, 0x29, 0x05, 0x5F, 0xDF, 0x77, 0xC9] rfl,
     tableRow [0x6B, 0x70, 0xB7, 0x35, 0xBC, 0x83, 0x9A, 0x7C, 0x7F, 0x4D, 0x8F, 0x52, 0x04, 0x4C, 0x9C, 0x11] rfl,
     tableRow [0x62, 0xE7, 0x10, 0x71, 0xA4, 0x76, 0xDA, 0x28, 0x16, 0x1C, 0xB9, 0xDC, 0x45, 0x0B, 0xB6, 0x26] rfl,
     tableRow [0xFF, 0xE5, 0x31, 0xF0, 0x1F, 0x8B, 0x1E, 0x98, 0x5D, 0xFE, 0xF6, 0x72, 0x96, 0xB4, 0x07, 0x7E] rfl,
     tableRow [0x5E, 0xCC, 0x34, 0xAF, 0xC0, 0xFC, 0xD7, 0xF3, 0x2D, 0x49, 0xC3, 0xCE, 0x15, 0x2E, 0x7B, 0x01] rfl]⟩, rfl⟩

/-- `LOG_TABLE` of `REF` (D15 annex). -/
def refLogTable : Table :=
  ⟨⟨[tableRow [0x00, 0x00, 0xAA, 0x55, 0xCC, 0xBB, 0x33, 0xEE, 0x77, 0x99, 0x66, 0xDD, 0x22, 0x88, 0x44, 0x11] rfl,
     tableRow [0xD2, 0xCF, 0x8D, 0x01, 0x2D, 0xFC, 0xD8, 0x10, 0x9D, 0x53, 0x6E, 0x4E, 0xD9, 0x35, 0xE6, 0xE4] rfl,
     tableRow [0x7D, 0xAB, 0x7A, 0x38, 0x84, 0x8F, 0xDF, 0x91, 0xD7, 0xBA, 0xA7, 0x83, 0x48, 0xF8, 0xFD, 0x19] rfl,
     tableRow [0x28, 0xE2, 0x56, 0x25, 0xF2, 0xC3, 0xA3, 0xA8, 0x2F, 0x3C, 0x3A, 0x8A, 0x82, 0x2E, 0x65, 0x52] rfl,
     tableRow [0x9F, 0xA5, 0x1B, 0x02, 0x9C, 0xDC, 0x3B, 0xA6, 0x5A, 0xF9, 0x20, 0xB1, 0xCD, 0xC9, 0x6A, 0xB3] rfl,
     tableRow [0x8E, 0xA2, 0xCB, 0x0F, 0xA0, 0x8B, 0x59, 0x94, 0xB8, 0x0A, 0x49, 0x95, 0x2A, 0xE8, 0xF0, 0xBC] rfl,
     tableRow [0x06, 0x60, 0xD0, 0x0D, 0x86, 0x68, 0x03, 0x30, 0x1A, 0xA1, 0x0C, 0xC0, 0x43, 0x34, 0x18, 0x81] rfl,
     tableRow [0xC1, 0xD3, 0xEB, 0x5D, 0x3D, 0x1C, 0xD5, 0xBE, 0x24, 0x7C, 0x8C, 0xFE, 0xC7, 0x42, 0xEF, 0xC8] rfl,
     tableRow [0x4A, 0xAC, 0x50, 0xC5, 0x78, 0x5E, 0x74, 0x15, 0x47, 0x51, 0x87, 0xE5, 0x05, 0x5C, 0xA4, 0xCA] rfl,
     tableRow [0x6C, 0x08, 0x7E, 0x96, 0x72, 0x73, 0xEC, 0x9A, 0xE7, 0x69, 0xC6, 0x80, 0xCE, 0xA9, 0x27, 0x37] rfl,
     tableRow [0x39, 0xB9, 0x4D, 0x76, 0xD4, 0x67, 0x93, 0x9B, 0x4B, 0x3F, 0x36, 0x04, 0x63, 0x40, 0xB4, 0xF3] rfl,
     tableRow [0xB0, 0xB7, 0x0B, 0x7B, 0xED, 0x2C, 0xDE, 0xC2, 0x31, 0xDA, 0x13, 0xAD, 0xC4, 0x6B, 0x4C, 0xB6] rfl,
     tableRow [0xF4, 0x70, 0x57, 0xFA, 0xAF, 0x75, 0x07, 0x4F, 0x23, 0xBF, 0x09, 0x1F, 0xF1, 0x90, 0xFB, 0x32] rfl,
     tableRow [0x5B, 0x26, 0x62, 0xB5, 0x6F, 0x61, 0x16, 0xF6, 0x98, 0x6D, 0xD6, 0x89, 0xDB, 0x58, 0x85, 0xBD] rfl,
     tableRow [0x17, 0x41, 0xB2, 0x29, 0x79, 0xE1, 0x54, 0xD1, 0x1D, 0x45, 0x1E, 0x97, 0x92, 0x2B, 0x14, 0x71] rfl,
     tableRow [0xE3, 0x21, 0x64, 0xF7, 0x0E, 0x9E, 0xEA, 0x5F, 0x7F, 0x46, 0x12, 0x3E, 0xF5, 0xAE, 0xE9, 0xE0] rfl]⟩, rfl⟩

/-- `ALPHA_MAP` of `REF` (D15 annex). -/
def refAlphaMap : Table :=
  ⟨⟨[tableRow [0x00, 0x10, 0x20, 0x30, 0x40, 0x50, 0x60, 0x70, 0x80, 0x90, 0xA0, 0xB0, 0xC0, 0xD0, 0xE0, 0xF0] rfl,
     tableRow [0x41, 0x51, 0x61, 0x71, 0x01, 0x11, 0x21, 0x31, 0xC1, 0xD1, 0xE1, 0xF1, 0x81, 0x91, 0xA1, 0xB1] rfl,
     tableRow [0x82, 0x92, 0xA2, 0xB2, 0xC2, 0xD2, 0xE2, 0xF2, 0x02, 0x12, 0x22, 0x32, 0x42, 0x52, 0x62, 0x72] rfl,
     tableRow [0xC3, 0xD3, 0xE3, 0xF3, 0x83, 0x93, 0xA3, 0xB3, 0x43, 0x53, 0x63, 0x73, 0x03, 0x13, 0x23, 0x33] rfl,
     tableRow [0x94, 0x84, 0xB4, 0xA4, 0xD4, 0xC4, 0xF4, 0xE4, 0x14, 0x04, 0x34, 0x24, 0x54, 0x44, 0x74, 0x64] rfl,
     tableRow [0xD5, 0xC5, 0xF5, 0xE5, 0x95, 0x85, 0xB5, 0xA5, 0x55, 0x45, 0x75, 0x65, 0x15, 0x05, 0x35, 0x25] rfl,
     tableRow [0x16, 0x06, 0x36, 0x26, 0x56, 0x46, 0x76, 0x66, 0x96, 0x86, 0xB6, 0xA6, 0xD6, 0xC6, 0xF6, 0xE6] rfl,
     tableRow [0x57, 0x47, 0x77, 0x67, 0x17, 0x07, 0x37, 0x27, 0xD7, 0xC7, 0xF7, 0xE7, 0x97, 0x87, 0xB7, 0xA7] rfl,
     tableRow [0xE8, 0xF8, 0xC8, 0xD8, 0xA8, 0xB8, 0x88, 0x98, 0x68, 0x78, 0x48, 0x58, 0x28, 0x38, 0x08, 0x18] rfl,
     tableRow [0xA9, 0xB9, 0x89, 0x99, 0xE9, 0xF9, 0xC9, 0xD9, 0x29, 0x39, 0x09, 0x19, 0x69, 0x79, 0x49, 0x59] rfl,
     tableRow [0x6A, 0x7A, 0x4A, 0x5A, 0x2A, 0x3A, 0x0A, 0x1A, 0xEA, 0xFA, 0xCA, 0xDA, 0xAA, 0xBA, 0x8A, 0x9A] rfl,
     tableRow [0x2B, 0x3B, 0x0B, 0x1B, 0x6B, 0x7B, 0x4B, 0x5B, 0xAB, 0xBB, 0x8B, 0x9B, 0xEB, 0xFB, 0xCB, 0xDB] rfl,
     tableRow [0x7C, 0x6C, 0x5C, 0x4C, 0x3C, 0x2C, 0x1C, 0x0C, 0xFC, 0xEC, 0xDC, 0xCC, 0xBC, 0xAC, 0x9C, 0x8C] rfl,
     tableRow [0x3D, 0x2D, 0x1D, 0x0D, 0x7D, 0x6D, 0x5D, 0x4D, 0xBD, 0xAD, 0x9D, 0x8D, 0xFD, 0xED, 0xDD, 0xCD] rfl,
     tableRow [0xFE, 0xEE, 0xDE, 0xCE, 0xBE, 0xAE, 0x9E, 0x8E, 0x7E, 0x6E, 0x5E, 0x4E, 0x3E, 0x2E, 0x1E, 0x0E] rfl,
     tableRow [0xBF, 0xAF, 0x9F, 0x8F, 0xFF, 0xEF, 0xDF, 0xCF, 0x3F, 0x2F, 0x1F, 0x0F, 0x7F, 0x6F, 0x5F, 0x4F] rfl]⟩, rfl⟩

/-- The reference configuration: `W = 64` ("current configuration uses W=64", R5), 1024 blocks (what
the test vectors assume, R7), the tables `REF` and `ALPHA = 0x10` (D15 annex), a tower product of which
nothing is known (R151). DESIGN CHOICE: the configuration `State.reset` is built with (log 2). -/
def Config.reference : Config where
  width := .w64
  memBlocks := 1024
  logTable := refLogTable
  expTable := refExpTable
  alphaMap := refAlphaMap
  alpha := 0x10
  tower := .unknown 0

end Sys2Proof
end

