-- ==== Sys2Proof/Machine/State.lean ====
section
/-! DEFINITION. The state of one block (10_state.md R34), the host's moves and the replies it reads
(R35), the reasons a step can stop, and the state after reset (R32). -/

namespace Sys2Proof.Machine

/-- One move of the host (10_state.md R35), each atomic and between commands. A read of `CMD` and a
write of `STATUS`, `FCMD` or `SRES` are no moves (R25). -/
inductive HostMove where
  /-- `ISSUE(cw)`: hand a command word to the sequencer through `CMD`. -/
  | issue (cw : Command)
  /-- `HWR(a, v)`: write block `a`. -/
  | hwr (a : Nat) (v : Block)
  /-- `HRD(a)`: read block `a`. -/
  | hrd (a : Nat)
  /-- `HSTATUS`: read `STATUS`. -/
  | hstatus
  /-- `HFCMD`: read `FCMD`. -/
  | hfcmd
  /-- `HSRES`: read `SRES`. -/
  | hsres
  /-- `RESET`. -/
  | reset
deriving DecidableEq, Repr

/-- What a reading move of the host returned (R35). -/
inductive HostReply where
  | block (v : Block)
  | status (v : BitVec 32)
  | fcmd (v : Command)
  | sres (v : Byte)
deriving DecidableEq, Repr

/-- The written blocks of `MEM`: block address and content, addresses strictly rising. A block that is
not listed has not been written since reset and reads as the free value `Config.powerOnBlock`
(R32, 20_memory.md R56; log 3, log 4). -/
abbrev Memory := List (Nat × Block)

/-- The canonical form: block addresses strictly rising. -/
abbrev Memory.wf (m : Memory) : Prop := m.Pairwise (fun p q => p.1 < q.1)

/-- The state of one block. The spec's five fields are `mem`, `sres`, `fault`, `cause`, `fcmd` (R34);
`cfg` holds the parameters, which no step changes (R31, log 1); `moves`, `replies` and `epoch` are the
model's own (log 5, log 6, log 3). -/
structure State where
  /-- `W`, `MEM_BLOCKS`, the ROM tables, `ALPHA` and `TOWER_MUL128` (R31). -/
  cfg : Config
  /-- `MEM` (R22). -/
  mem : Memory
  /-- `SRES` (R28). -/
  sres : Byte
  /-- `STATUS.FAULT` (R26). -/
  fault : Bool
  /-- `STATUS.CAUSE` (R26). -/
  cause : BitVec 4
  /-- `FCMD` (R27). -/
  fcmd : Command
  /-- The host moves not made yet, in the order the host makes them (20_memory.md R50). -/
  moves : List HostMove
  /-- What the host's reading moves returned, newest first. -/
  replies : List HostReply
  /-- How many resets there were since power-on; it selects the content of unwritten blocks. -/
  epoch : Nat
deriving DecidableEq, Repr

/-- The reasons a step stops. Both are raised by `step` for a host move to which the spec gives no
transition (R35: "Otherwise no move"); no command stops. Safe: the machine does not go on (log 8). -/
inductive Fault where
  /-- `HWR(a, v)` with `a` outside `MEM`. Raised by `hostWrite`. Safe. -/
  | hostWriteOutsideMem (a : Nat)
  /-- `HRD(a)` with `a` outside `MEM`. Raised by `hostRead`. Safe. -/
  | hostReadOutsideMem (a : Nat)
deriving DecidableEq, Repr

/-- The reasons the model declines. -/
inductive Refusal where
  /-- An instruction that has no meaning yet. Raised by an arm of `exec` alone; no arm raises it. Safe. -/
  | notModelled (mnemonic : String)
deriving DecidableEq, Repr

/-- The state after power-on reset (R32, 70_reset_and_hazards.md R180): `SRES`, `FAULT`, `CAUSE` and
`FCMD` zero, no block written. The configuration is the reference one (log 2); no move is waiting and
nothing has been read (log 5, log 6). -/
def State.reset : State where
  cfg := Config.reference
  mem := []
  sres := 0
  fault := false
  cause := 0
  fcmd := 0
  moves := []
  replies := []
  epoch := 0

end Sys2Proof.Machine
end

