-- ==== Sys2Proof/Machine/Flags.lean ====
section
/-! DEFINITION. `STATUS` (10_state.md R26), the only flag `FAULT`, and the cause codes (60_exceptions.md
R161). No command computes a flag from its arithmetic. -/

namespace Sys2Proof.Machine

/-- The four fault causes (R161). -/
inductive Cause where
  | illegalCommand | badStride | addrRange | overlap
deriving DecidableEq, Repr

/-- The code of a cause in `STATUS.CAUSE` (R161). -/
def Cause.code : Cause → BitVec 4
  | .illegalCommand => 1
  | .badStride => 2
  | .addrRange => 3
  | .overlap => 4

/-- `STATUS` as the host reads it (R26): `FAULT` in bit 0, `CAUSE` in bits 7:4, the rest hardwired 0. -/
def State.status (s : State) : BitVec 32 :=
  (0 : BitVec 24) ++ s.cause ++ (0 : BitVec 3) ++ BitVec.ofBool s.fault

/-- The first cause whose condition holds (60_exceptions.md R162). -/
def firstCause : List (Bool × Cause) → Option Cause
  | [] => none
  | (true, c) :: _ => some c
  | (false, _) :: rest => firstCause rest

end Sys2Proof.Machine
end

