-- ==== Sys2Proof/Machine/Operands.lean ====
section
/-! DEFINITION. The parts of a block (00_scope.md R12), blocks put together from bits or lanes, and the
regions of block addresses a command names (R16, 20_memory.md R55). -/

namespace Sys2Proof.Machine

/-- The number whose digits in base `2^w` are `f 0, …, f (n-1)`, least significant first (R10, R11). -/
def natOfDigits (w : Nat) : Nat → (Nat → BitVec w) → Nat
  | 0, _ => 0
  | n + 1, f => 2 ^ (w * n) * (f n).toNat + natOfDigits w n f

/-- The `n`-bit value whose bit `j` is `f j` (R10). -/
def bitsOf (n : Nat) (f : Nat → Bool) : BitVec n :=
  BitVec.ofNat n (natOfDigits 1 n fun j => BitVec.ofBool (f j))

/-- The block `{f 15, …, f 0}` whose lane `l` is `f l` (R11, R12; 43_gf256_lanes.md R130). -/
def lanesOf (f : Nat → Byte) : Block := BitVec.ofNat 128 (natOfDigits 8 16 f)

/-- `WORDOF(v, m) = v[W*m + W - 1 : W*m]` (R12). -/
def wordOf (w : WordWidth) (v : Block) (m : Nat) : BitVec w.bits := v.extractLsb' (w.bits * m) w.bits

/-- `BYTEOF(v, n) = v[8*n + 7 : 8*n]`; lane `n` of a lane vector (R12). -/
def byteOf (v : Block) (n : Nat) : Byte := v.extractLsb' (8 * n) 8

/-- `SETWORD(v, m, x)`: `v` with word `m` replaced by `x` (R12). -/
def setWord (w : WordWidth) (v : Block) (m : Nat) (x : BitVec w.bits) : Block :=
  bitsOf 128 fun p => if p / w.bits = m then x.getLsbD (p % w.bits) else v.getLsbD p

/-- `SETBYTE(v, n, x)`: `v` with byte `n` replaced by `x` (R12). -/
def setByte (v : Block) (n : Nat) (x : Byte) : Block :=
  bitsOf 128 fun p => if p / 8 = n then x.getLsbD (p % 8) else v.getLsbD p

/-- A region `[base, base + size)` of block addresses, natural numbers (R16, R17 (a)). -/
structure Region where
  base : Nat
  size : Nat
deriving DecidableEq, Repr

/-- `inrange` (R16): the region lies in `[0, MEM_BLOCKS)`, no wrap-around (20_memory.md R46). -/
def Region.inRange (r : Region) (memBlocks : Nat) : Bool := decide (r.base + r.size ≤ memBlocks)

/-- Two regions overlap when their intersection is not empty (R16). -/
def Region.overlaps (r q : Region) : Bool :=
  decide (max r.base q.base < min (r.base + r.size) (q.base + q.size))

/-- `span(a, s) = [a, a + (W - 1) * s + 1)`, the span of a strided view of `W` blocks (R16). -/
def span (w : WordWidth) (a s : Nat) : Region := { base := a, size := (w.bits - 1) * s + 1 }

/-- The direct region of `n` blocks at a 16-bit field (20_memory.md R55 (a)). -/
def direct (f : Field) (n : Nat) : Region := { base := f.toNat, size := n }

/-- The address of block `k` of the strided view at `f` with stride `s` (R55 (b), 40_bit_transpose.md
R81); a dense region is the view with stride 1. -/
def viewAddr (f s k : Nat) : Nat := f + k * s

end Sys2Proof.Machine
end

