-- ==== Sys2Proof/Machine/Ops.lean ====
section
/-! DEFINITION. The named operations over `MEM` and the registers: reading and writing blocks, words and
views (00_scope.md R13), taking a fault (60_exceptions.md R163), the way out of it (R165, `RESET`), and
the order in which a command is executed (30_encoding.md R64). -/

namespace Sys2Proof.Machine

/-! ### Memory -/

/-- The content of a written block. -/
def Memory.find? : Memory → Nat → Option Block
  | [], _ => none
  | (b, v) :: m, a => if b = a then some v else Memory.find? m a

/-- Write block `a`, keeping the addresses strictly rising. -/
def Memory.write : Memory → Nat → Block → Memory
  | [], a, v => [(a, v)]
  | (b, x) :: m, a, v =>
    if a < b then (a, v) :: (b, x) :: m
    else if a = b then (a, v) :: m
    else (b, x) :: Memory.write m a v

/-- `MEM[a]` (R13): the last value written, or the unspecified content of a block nobody has written
since reset (20_memory.md R56). -/
def State.readBlock (s : State) (a : Nat) : Block :=
  (s.mem.find? a).getD (Config.powerOnBlock s.epoch a)

/-- `MEM[a] <- v` (R13). -/
def State.writeBlock (s : State) (a : Nat) (v : Block) : State := { s with mem := s.mem.write a v }

/-- Block `k` of the view with base `f` and stride `st` (40_bit_transpose.md R81). -/
def State.view (s : State) (f st : Nat) : Nat → Block := fun k => s.readBlock (viewAddr f st k)

/-- Write `v 0, …, v (n-1)` to the first `n` blocks of the view with base `f` and stride `st`. The
values are computed from the state the command started in (20_memory.md R48). -/
def State.writeView (s : State) (f st : Nat) (v : Nat → Block) : Nat → State
  | 0 => s
  | n + 1 => (State.writeView s f st v n).writeBlock (viewAddr f st n) (v n)

/-- `WORD(a, n) = WORDOF(MEM[a + n div WPB], n mod WPB)` (R13). -/
def State.readWord (s : State) (a n : Nat) : BitVec s.cfg.width.bits :=
  wordOf s.cfg.width (s.readBlock (a + n / s.cfg.width.wordsPerBlock)) (n % s.cfg.width.wordsPerBlock)

/-- `WORD(a, n) <- x`: that word and nothing else (R13). -/
def State.writeWord (s : State) (a n : Nat) (x : BitVec s.cfg.width.bits) : State :=
  s.writeBlock (a + n / s.cfg.width.wordsPerBlock)
    (setWord s.cfg.width (s.readBlock (a + n / s.cfg.width.wordsPerBlock))
      (n % s.cfg.width.wordsPerBlock) x)

/-! ### Registers, faults, reset -/

/-- `SRES <- v` (R14). -/
def State.setSres (s : State) (v : Byte) : State := { s with sres := v }

/-- `raise Fault(cause)` for the word `cw` (60_exceptions.md R163): `STATUS.FAULT <- 1`,
`STATUS.CAUSE <- cause`, `FCMD <- cw`, nothing else. Control goes nowhere. -/
def State.raiseFault (s : State) (c : Cause) (cw : Command) : State :=
  { s with fault := true, cause := c.code, fcmd := cw }

/-- The effect of `RESET` (70_reset_and_hazards.md R180), the only way out of a fault (60_exceptions.md
R165): registers zero, `MEM` unspecified anew, the configuration unaffected. The host's list of moves
and what it has read are the host's own and stay (log 5, log 6). DESIGN CHOICE: the new content of `MEM` is a
function of the number of the reset and the address alone; whether it may depend on what `MEM` held
before, or be it, the spec leaves open (R32, 90_conflicts.md C11; log 24, unsafe). -/
def State.doReset (s : State) : State :=
  { s with mem := [], sres := 0, fault := false, cause := 0, fcmd := 0, epoch := s.epoch + 1 }

/-- The reply of a reading move is handed to the host (10_state.md R35). -/
def State.reply (s : State) (r : HostReply) : State := { s with replies := r :: s.replies }

/-! ### Executing a command -/

/-- Steps 1 and 3 to 6 of R64 for a legal command word `cw`: ignored while halted (60_exceptions.md
R164); else the fault of its operand checks, if any; else its effect. -/
def command (cw : Command) (cause : Option Cause) (effect : State → State) (s : State) :
    Host.Outcome State Fault Refusal :=
  if s.fault then .next s
  else
    match cause with
    | some c => .next (s.raiseFault c cw)
    | none => .next (effect s)

/-- Steps 1 and 2 of R64 for an illegal word (30_encoding.md R63). -/
def illegalCommand (cw : Command) (s : State) : Host.Outcome State Fault Refusal :=
  command cw (some .illegalCommand) id s

end Sys2Proof.Machine
end

