-- ==== Sys2Proof/Machine/Batch.lean ====
section
/-! DEFINITION. The batched multiply orchestrator (44_batched_multiply.md): `BMUL64`. -/

namespace Sys2Proof.Machine

/-- The value of a formula at two operands. -/
def evalFormula (x y : Block) : TowerFormula → Block
  | .lhs => x
  | .rhs => y
  | .const v => v
  | .xor f g => evalFormula x y f ^^^ evalFormula x y g
  | .select n c f g => if (evalFormula x y c).getLsbD n then evalFormula x y f else evalFormula x y g

/-- `TOWER_MUL128(x, y)` (R151): the function the configuration is supplied with. It depends on its two
arguments and the configuration alone. -/
def towerMul128 (c : Config) (x y : Block) : Block :=
  match c.tower with
  | .unknown n => Config.unknownTower n x y
  | .formula f => evalFormula x y f

/-- The operand checks of `BMUL64 dst, a, b` (R152): the ranges of the three regions of 64 blocks, then
the overlap of the destination with either source. The sources may overlap. -/
def bmul64Cause (c : Config) (dst a b : Field) : Option Cause :=
  firstCause
    [(!((direct a 64).inRange c.memBlocks && (direct b 64).inRange c.memBlocks &&
        (direct dst 64).inRange c.memBlocks), .addrRange),
     ((direct dst 64).overlaps (direct a 64) || (direct dst 64).overlaps (direct b 64), .overlap)]

/-- The effect of `BMUL64 dst, a, b` (R152): `MEM[dst + e] <- TOWER_MUL128(MEM[a + e], MEM[b + e])`. The
product is the one of the configuration (R151, log 7). -/
def bmul64Effect (dst a b : Field) (s : State) : State :=
  s.writeView dst.toNat 1
    (fun e => towerMul128 s.cfg (s.view a.toNat 1 e) (s.view b.toNat 1 e)) 64

/-- `BMUL64 dst, a, b` (R152). -/
def execBmul64 (dst a b : Field) (s : State) : Host.Outcome State Fault Refusal :=
  command (encode (.bmul64 dst a b)) (bmul64Cause s.cfg dst a b) (bmul64Effect dst a b) s

end Sys2Proof.Machine
end

