-- ==== Sys2Proof/Machine/ByteSlice.lean ====
section
/-! DEFINITION. The byte-slice engine (41_byte_slice.md): `BSL`, `UBSL`. -/

namespace Sys2Proof.Machine

/-- `BSF` (R100): row `b` of the elements `E`, with `BYTEOF(S[b], e) = BYTEOF(E[e], b)`. -/
def byteSlice (E : Nat → Block) (b : Nat) : Block := lanesOf fun e => byteOf (E e) b

/-- `UBSF` (R101): element `e` of the rows `S`, with `BYTEOF(E[e], b) = BYTEOF(S[b], e)`. -/
def byteUnslice (S : Nat → Block) (e : Nat) : Block := lanesOf fun b => byteOf (S b) e

/-- The operand checks of a command from one region of `n` blocks to another (R102, R103; 20_memory.md
R46, R47): the ranges of both, then their overlap. -/
def copyCause (c : Config) (dst src : Field) (n : Nat) : Option Cause :=
  firstCause
    [(!((direct src n).inRange c.memBlocks && (direct dst n).inRange c.memBlocks), .addrRange),
     ((direct dst n).overlaps (direct src n), .overlap)]

/-- The operand checks of `BSL dst, src` (R102). -/
def bslCause (c : Config) (dst src : Field) : Option Cause := copyCause c dst src 16

/-- The effect of `BSL dst, src` (R102). -/
def bslEffect (dst src : Field) (s : State) : State :=
  s.writeView dst.toNat 1 (byteSlice (s.view src.toNat 1)) 16

/-- `BSL dst, src` (R102). -/
def execBsl (dst src : Field) (s : State) : Host.Outcome State Fault Refusal :=
  command (encode (.bsl dst src)) (bslCause s.cfg dst src) (bslEffect dst src) s

/-- The operand checks of `UBSL dst, src` (R103). -/
def ubslCause (c : Config) (dst src : Field) : Option Cause := copyCause c dst src 16

/-- The effect of `UBSL dst, src` (R103). -/
def ubslEffect (dst src : Field) (s : State) : State :=
  s.writeView dst.toNat 1 (byteUnslice (s.view src.toNat 1)) 16

/-- `UBSL dst, src` (R103). -/
def execUbsl (dst src : Field) (s : State) : Host.Outcome State Fault Refusal :=
  command (encode (.ubsl dst src)) (ubslCause s.cfg dst src) (ubslEffect dst src) s

end Sys2Proof.Machine
end

