-- ==== Sys2Proof/Machine/Scalar.lean ====
section
/-! DEFINITION. The GF(2^8) table arithmetic core (42_gf256_scalar.md): `GFMUL`, `GFMULC`. -/

namespace Sys2Proof.Machine

/-- The exponent `GMUL` looks up (R117): the sum of the two logarithms, a natural number, less 255 when
it is above 254. -/
def reducedExponent (t : Nat) : Nat := if t > 254 then t - 255 else t

/-- `GMUL(lhs, rhs)` (R117): no table is read when an operand is 0. -/
def gmul (c : Config) (lhs rhs : Byte) : Byte :=
  if lhs = 0 ∨ rhs = 0 then 0
  else
    c.expTable.at
      (BitVec.ofNat 8 (reducedExponent ((c.logTable.at lhs).toNat + (c.logTable.at rhs).toNat)))

/-- `GMULC(rhs) = ALPHA_MAP[rhs]` (R119). -/
def gmulc (c : Config) (rhs : Byte) : Byte := c.alphaMap.at rhs

/-- R122, the named property `TablesAreField`: the product distributes over bitwise XOR, the field's
addition. No rule of the block depends on it; a claim may take it as a premise. -/
def TablesAreField (c : Config) : Prop :=
  ∀ a b d : Byte, gmul c a (b ^^^ d) = gmul c a b ^^^ gmul c a d

/-- `GFMUL` has no operand check beyond the legality of its word (R118; 30_encoding.md R64). -/
def gfmulCause (_c : Config) (_lhs _rhs : Byte) : Option Cause := none

/-- The effect of `GFMUL lhs, rhs` (R118). -/
def gfmulEffect (lhs rhs : Byte) (s : State) : State := s.setSres (gmul s.cfg lhs rhs)

/-- `GFMUL lhs, rhs` (R118). -/
def execGfmul (lhs rhs : Byte) (s : State) : Host.Outcome State Fault Refusal :=
  command (encode (.gfmul lhs rhs)) (gfmulCause s.cfg lhs rhs) (gfmulEffect lhs rhs) s

/-- `GFMULC` has no operand check beyond the legality of its word (R120). -/
def gfmulcCause (_c : Config) (_rhs : Byte) : Option Cause := none

/-- The effect of `GFMULC rhs` (R120). -/
def gfmulcEffect (rhs : Byte) (s : State) : State := s.setSres (gmulc s.cfg rhs)

/-- `GFMULC rhs` (R120). -/
def execGfmulc (rhs : Byte) (s : State) : Host.Outcome State Fault Refusal :=
  command (encode (.gfmulc rhs)) (gfmulcCause s.cfg rhs) (gfmulcEffect rhs) s

end Sys2Proof.Machine
end

