-- ==== Sys2Proof/Machine/Lanes.lean ====
section
/-! DEFINITION. The vectorized multiply layer (43_gf256_lanes.md): `LLKUP`, `PMUL`, `PMULC`; and the
document's own construction of the lookup and the packed multiply (R131, R132, R135), which the commands'
lane-by-lane meanings equal. -/

namespace Sys2Proof.Machine

/-! ### The lookup by quadrants and the packed multiply, as the document builds them -/

/-- `NL64(Q, x)` (R131): `Q[x]` if `x < 64`, else 0. -/
def nl64 (q : Byte → Byte) (x : Byte) : Byte := if x.toNat < 64 then q x else 0

/-- Quadrant `q` of a table (R132): `Tq[q][x] = T[64*q + x]`. -/
def quadrant (t : Table) (q : Nat) (x : Byte) : Byte := t.at (BitVec.ofNat 8 (64 * q + x.toNat))

/-- One lane of `LANE_LOOKUP` by the quadrant technique (R132), the four terms combined by OR. -/
def lookupByQuadrants (t : Table) (x : Byte) : Byte :=
  nl64 (quadrant t 0) (x ^^^ 0x00) ||| nl64 (quadrant t 1) (x ^^^ 0x40) |||
    nl64 (quadrant t 2) (x ^^^ 0x80) ||| nl64 (quadrant t 3) (x ^^^ 0xC0)

/-- `LANE_LOOKUP(T, idx)` (R132). -/
def laneLookup (t : Table) (idx : Block) : Block :=
  lanesOf fun l => lookupByQuadrants t (byteOf idx l)

/-- One lane of `PMF` after the two logarithm lookups `la`, `lb` (R135): the 8-bit sum, plus one where
it wrapped (90_conflicts.md C3). -/
def packedExponent (la lb : Byte) : Byte :=
  if (la + lb).toNat < la.toNat then la + lb + 1 else la + lb

/-- `PMF(a, b)` (R135): logarithm lookups, wrapped sums corrected, antilogarithm lookup, and zero in the
lanes where an operand is zero. -/
def packedMultiply (c : Config) (a b : Block) : Block :=
  let la := laneLookup c.logTable a
  let lb := laneLookup c.logTable b
  let r := laneLookup c.expTable (lanesOf fun l => packedExponent (byteOf la l) (byteOf lb l))
  lanesOf fun l => if byteOf a l = 0 ∨ byteOf b l = 0 then 0 else byteOf r l

/-! ### The commands -/

/-- The table `LLKUP` reads (R134). -/
def selectedTable (c : Config) : TableSel → Table
  | .log => c.logTable
  | .exp => c.expTable
  | .alpha => c.alphaMap

/-- The operand checks of a command from one block to another (R134, R138): the ranges of both, then
`dst = src`. -/
def laneCopyCause (c : Config) (dst src : Field) : Option Cause :=
  firstCause
    [(!((direct src 1).inRange c.memBlocks && (direct dst 1).inRange c.memBlocks), .addrRange),
     (decide (dst.toNat = src.toNat), .overlap)]

/-- The operand checks of `LLKUP dst, src, table` (R134); a reserved table select is illegal already as a
word (30_encoding.md R63 (e)). -/
def llkupCause (c : Config) (dst src : Field) (_table : TableSel) : Option Cause :=
  laneCopyCause c dst src

/-- The effect of `LLKUP dst, src, table` (R134). -/
def llkupEffect (dst src : Field) (table : TableSel) (s : State) : State :=
  s.writeBlock dst.toNat
    (lanesOf fun l => (selectedTable s.cfg table).at (byteOf (s.readBlock src.toNat) l))

/-- `LLKUP dst, src, table` (R134). -/
def execLlkup (dst src : Field) (table : TableSel) (s : State) :
    Host.Outcome State Fault Refusal :=
  command (encode (.llkup dst src table)) (llkupCause s.cfg dst src table)
    (llkupEffect dst src table) s

/-- The operand checks of `PMUL dst, a, b` (R137): the ranges of the three blocks, then `dst = a` or
`dst = b`. -/
def pmulCause (c : Config) (dst a b : Field) : Option Cause :=
  firstCause
    [(!((direct a 1).inRange c.memBlocks && (direct b 1).inRange c.memBlocks &&
        (direct dst 1).inRange c.memBlocks), .addrRange),
     (decide (dst.toNat = a.toNat) || decide (dst.toNat = b.toNat), .overlap)]

/-- The effect of `PMUL dst, a, b` (R137): `c[l] = GMUL(BYTEOF(va, l), BYTEOF(vb, l))`. -/
def pmulEffect (dst a b : Field) (s : State) : State :=
  s.writeBlock dst.toNat
    (lanesOf fun l =>
      gmul s.cfg (byteOf (s.readBlock a.toNat) l) (byteOf (s.readBlock b.toNat) l))

/-- `PMUL dst, a, b` (R137). -/
def execPmul (dst a b : Field) (s : State) : Host.Outcome State Fault Refusal :=
  command (encode (.pmul dst a b)) (pmulCause s.cfg dst a b) (pmulEffect dst a b) s

/-- The operand checks of `PMULC dst, src` (R138). -/
def pmulcCause (c : Config) (dst src : Field) : Option Cause := laneCopyCause c dst src

/-- The effect of `PMULC dst, src` (R138): `c[l] = ALPHA_MAP[BYTEOF(v, l)]`. -/
def pmulcEffect (dst src : Field) (s : State) : State :=
  s.writeBlock dst.toNat (lanesOf fun l => gmulc s.cfg (byteOf (s.readBlock src.toNat) l))

/-- `PMULC dst, src` (R138). -/
def execPmulc (dst src : Field) (s : State) : Host.Outcome State Fault Refusal :=
  command (encode (.pmulc dst src)) (pmulcCause s.cfg dst src) (pmulcEffect dst src) s

end Sys2Proof.Machine
end

