-- ==== Sys2Proof/Machine/Transpose.lean ====
section
/-! DEFINITION. The bit transpose engine (40_bit_transpose.md): `TRN`, `TRND`, `TRNR`. -/

namespace Sys2Proof.Machine

/-- `TRF` (R82, R83) as a dense group: from the rows `R`, block `t` of the 128 output words, with
`D[t][m * W + k] = R[k][t * WPB + m]`. -/
def transposeForward (w : WordWidth) (R : Nat → Block) (t : Nat) : Block :=
  bitsOf 128 fun q => (R (q % w.bits)).getLsbD (t * w.wordsPerBlock + q / w.bits)

/-- `TRI` (R84): from the dense group `D`, row `k`, with `R[k][p] = T[p][k]` and `T[p]` word
`p mod WPB` of block `p div WPB`. -/
def transposeInverse (w : WordWidth) (D : Nat → Block) (k : Nat) : Block :=
  bitsOf 128 fun p => (D (p / w.wordsPerBlock)).getLsbD (p % w.wordsPerBlock * w.bits + k)

/-- The operand checks of `TRN base, stride` (R85): stride, then range; never overlap. -/
def trnCause (c : Config) (base stride : Field) : Option Cause :=
  firstCause
    [(decide (stride.toNat = 0), .badStride),
     (!(span c.width base.toNat stride.toNat).inRange c.memBlocks, .addrRange)]

/-- The effect of `TRN base, stride` (R85): the strided view, transposed, over the dense group at
`base`. -/
def trnEffect (base stride : Field) (s : State) : State :=
  s.writeView base.toNat 1
    (transposeForward s.cfg.width (s.view base.toNat stride.toNat)) s.cfg.width.bits

/-- `TRN base, stride` (R85). -/
def execTrn (base stride : Field) (s : State) : Host.Outcome State Fault Refusal :=
  command (encode (.trn base stride)) (trnCause s.cfg base stride) (trnEffect base stride) s

/-- The operand checks of `TRND dst, src, stride` (R86): stride, the ranges of the source span and the
destination group, then the overlap of the two. -/
def trndCause (c : Config) (dst src stride : Field) : Option Cause :=
  firstCause
    [(decide (stride.toNat = 0), .badStride),
     (!((span c.width src.toNat stride.toNat).inRange c.memBlocks &&
        (direct dst c.width.bits).inRange c.memBlocks), .addrRange),
     ((direct dst c.width.bits).overlaps (span c.width src.toNat stride.toNat), .overlap)]

/-- The effect of `TRND dst, src, stride` (R86): the transpose ORed into the old content of the dense
group at `dst`. -/
def trndEffect (dst src stride : Field) (s : State) : State :=
  s.writeView dst.toNat 1
    (fun t => s.view dst.toNat 1 t |||
      transposeForward s.cfg.width (s.view src.toNat stride.toNat) t) s.cfg.width.bits

/-- `TRND dst, src, stride` (R86). -/
def execTrnd (dst src stride : Field) (s : State) : Host.Outcome State Fault Refusal :=
  command (encode (.trnd dst src stride)) (trndCause s.cfg dst src stride)
    (trndEffect dst src stride) s

/-- The operand checks of `TRNR base, stride` (R87): those of `TRN`. -/
def trnrCause (c : Config) (base stride : Field) : Option Cause :=
  firstCause
    [(decide (stride.toNat = 0), .badStride),
     (!(span c.width base.toNat stride.toNat).inRange c.memBlocks, .addrRange)]

/-- The effect of `TRNR base, stride` (R87): the dense group at `base`, transposed back, over the
strided view. -/
def trnrEffect (base stride : Field) (s : State) : State :=
  s.writeView base.toNat stride.toNat
    (transposeInverse s.cfg.width (s.view base.toNat 1)) s.cfg.width.bits

/-- `TRNR base, stride` (R87). -/
def execTrnr (base stride : Field) (s : State) : Host.Outcome State Fault Refusal :=
  command (encode (.trnr base stride)) (trnrCause s.cfg base stride) (trnrEffect base stride) s

end Sys2Proof.Machine
end

