-- ==== Sys2Proof/Machine/Dispatch.lean ====
section
/-! DEFINITION. The meaning of each command (30_encoding.md R62, R64), one arm per row of the opcode
table. -/

namespace Sys2Proof.Machine

def exec (i : Instr) (s : State) : Host.Outcome State Fault Refusal :=
  match i with
  | .trn base stride => Sys2Proof.Machine.execTrn base stride s
  | .trnd dst src stride => Sys2Proof.Machine.execTrnd dst src stride s
  | .trnr base stride => Sys2Proof.Machine.execTrnr base stride s
  | .bsl dst src => Sys2Proof.Machine.execBsl dst src s
  | .ubsl dst src => Sys2Proof.Machine.execUbsl dst src s
  | .gfmul lhs rhs => Sys2Proof.Machine.execGfmul lhs rhs s
  | .gfmulc rhs => Sys2Proof.Machine.execGfmulc rhs s
  | .llkup dst src table => Sys2Proof.Machine.execLlkup dst src table s
  | .pmul dst a b => Sys2Proof.Machine.execPmul dst a b s
  | .pmulc dst src => Sys2Proof.Machine.execPmulc dst src s
  | .bmul64 dst a b => Sys2Proof.Machine.execBmul64 dst a b s

end Sys2Proof.Machine
end

