-- ==== Sys2Proof/Machine/HostMoves.lean ====
section
/-! DEFINITION. The host's moves other than `ISSUE` (10_state.md R35). They are allowed while the block is
halted (60_exceptions.md R164). -/

namespace Sys2Proof.Machine

/-- `HWR(a, v)` (R35): `MEM[a] <- v`; outside `MEM` it is no move (log 8). -/
def hostWrite (a : Nat) (v : Block) (s : State) : Host.Outcome State Fault Refusal :=
  if a < s.cfg.memBlocks then .next (s.writeBlock a v) else .fault (.hostWriteOutsideMem a)

/-- `HRD(a)` (R35): returns `MEM[a]`, no state change; outside `MEM` it is no move (log 8). -/
def hostRead (a : Nat) (s : State) : Host.Outcome State Fault Refusal :=
  if a < s.cfg.memBlocks then .next (s.reply (.block (s.readBlock a)))
  else .fault (.hostReadOutsideMem a)

/-- `HSTATUS` (R35). -/
def hostStatus (s : State) : Host.Outcome State Fault Refusal := .next (s.reply (.status s.status))

/-- `HFCMD` (R35). -/
def hostFcmd (s : State) : Host.Outcome State Fault Refusal := .next (s.reply (.fcmd s.fcmd))

/-- `HSRES` (R35). -/
def hostSres (s : State) : Host.Outcome State Fault Refusal := .next (s.reply (.sres s.sres))

/-- `RESET` (R35, 70_reset_and_hazards.md R180). -/
def hostReset (s : State) : Host.Outcome State Fault Refusal := .next s.doReset

/-- The block between moves, when the host makes none: idle, all state kept (60_exceptions.md R175,
log 9). -/
def idle (s : State) : Host.Outcome State Fault Refusal := .next s

end Sys2Proof.Machine
end

