-- ==== Sys2Proof/Machine/Step.lean ====
section
/-! DEFINITION. One step: the host's next move (10_state.md R35), a command word decoded and executed to
completion (R33). There is no fetch (R21): the next word is the `issue` at the head of `moves`. -/

namespace Sys2Proof.Machine

/-- `ISSUE(cw)` (30_encoding.md R64): decode the word, execute the command, or reject the word. -/
def issue (cw : Command) (s : State) : Host.Outcome State Fault Refusal :=
  match decode cw with
  | .ok i => exec i s
  | .error _ => illegalCommand cw s

/-- The effect of one host move (10_state.md R35). -/
def makeMove (m : HostMove) (s : State) : Host.Outcome State Fault Refusal :=
  match m with
  | .issue cw => issue cw s
  | .hwr a v => hostWrite a v s
  | .hrd a => hostRead a s
  | .hstatus => hostStatus s
  | .hfcmd => hostFcmd s
  | .hsres => hostSres s
  | .reset => hostReset s

/-- One step: the first waiting move is taken from the list and made, whole (20_memory.md R45, R50);
with none waiting the block is idle. -/
def step (s : State) : Host.Outcome State Fault Refusal :=
  match s.moves with
  | [] => idle s
  | m :: rest => makeMove m { s with moves := rest }

/-- The state in which the very next step issues the command word `w` (log 17). -/
def State.withFetchWord (s : State) (nbits w : Nat) : State :=
  { s with moves := .issue (tableWord nbits w) :: s.moves }

end Sys2Proof.Machine
end

