-- ==== Sys2Proof/Machine/Checks.lean ====
section
/-! DEFINITION. The fault of a command, or of a word, read from it and the configuration alone
(60_exceptions.md R160): the checks of each command's meaning, put together. -/

namespace Sys2Proof.Machine

/-- The fault a legal command takes, if any, by its operand checks (30_encoding.md R64 steps 3 to 5). -/
def instrCause (c : Config) : Instr → Option Cause
  | .trn base stride => trnCause c base stride
  | .trnd dst src stride => trndCause c dst src stride
  | .trnr base stride => trnrCause c base stride
  | .bsl dst src => bslCause c dst src
  | .ubsl dst src => ubslCause c dst src
  | .gfmul lhs rhs => gfmulCause c lhs rhs
  | .gfmulc rhs => gfmulcCause c rhs
  | .llkup dst src table => llkupCause c dst src table
  | .pmul dst a b => pmulCause c dst a b
  | .pmulc dst src => pmulcCause c dst src
  | .bmul64 dst a b => bmul64Cause c dst a b

/-- The fault a command word takes in a running block, if any (R64 steps 2 to 5). -/
def wordCause (c : Config) (cw : Command) : Option Cause :=
  match decode cw with
  | .ok i => instrCause c i
  | .error _ => some .illegalCommand

end Sys2Proof.Machine
end

