-- ==== Sys2Proof/WellFormed.lean ====
section
/-! DEFINITION. The well-formedness of a configuration: `MEM_BLOCKS` (00_scope.md R7) and the table
rules 42_gf256_scalar.md R111 to R116, one check each.
`W` (R5) needs no check, since only the four supported widths are terms. Every term of `Instr` is
well-formed: its types admit exactly what the encoding admits (30_encoding.md R61, R63). -/

namespace Sys2Proof

/-- The byte whose number is `n`. -/
def byteOfNat (n : Nat) : Byte := BitVec.ofNat 8 n

/-- The product the document gives for two bytes (42_gf256_scalar.md R117, the quoted formula): 0 if
either is 0, else `exp_table[(log_table[lhs] + log_table[rhs]) mod 255]`. The machine computes it by the
conditional subtraction instead (`gmul`). -/
def Config.productByFormula (c : Config) (lhs rhs : Byte) : Byte :=
  if lhs = 0 ∨ rhs = 0 then 0
  else c.expTable.at (byteOfNat (((c.logTable.at lhs).toNat + (c.logTable.at rhs).toNat) % 255))

/-- R7: `1 <= MEM_BLOCKS <= 65536`. -/
def Config.memBlocksOk (c : Config) : Bool := decide (1 ≤ c.memBlocks) && decide (c.memBlocks ≤ 65536)

/-- R111: on the exponents 0 to 254 `EXP_TABLE` is a bijection onto the bytes 1 to 255. Checked as: no
entry is 0 and `LOG_TABLE` undoes each (R112, "so also `LOG_TABLE[EXP_TABLE[e]] = e`"), so no two entries
are equal; `logInverse` says that every nonzero byte is an entry. -/
def Config.expBijective (c : Config) : Bool :=
  (List.range 255).all fun e =>
    !Nat.beq (c.expTable.at (byteOfNat e)).toNat 0 &&
      Nat.beq (c.logTable.at (c.expTable.at (byteOfNat e))).toNat e

/-- R112: for every nonzero byte `x`, `LOG_TABLE[x]` is in 0 to 254 and `EXP_TABLE[LOG_TABLE[x]] = x`. -/
def Config.logInverse (c : Config) : Bool :=
  (List.range 256).all fun x =>
    Nat.beq x 0 ||
      (decide ((c.logTable.at (byteOfNat x)).toNat ≤ 254) &&
        Nat.beq (c.expTable.at (c.logTable.at (byteOfNat x))).toNat x)

/-- R113: the two literals, `LOG_TABLE[1] = 0x00` and `EXP_TABLE[0] = 0x01`. -/
def Config.pinnedLiterals (c : Config) : Bool :=
  decide (c.logTable.at 1 = 0) && decide (c.expTable.at 0 = 1)

/-- R115: `EXP_TABLE[255] = EXP_TABLE[0]`. -/
def Config.expWraps (c : Config) : Bool := decide (c.expTable.at 255 = c.expTable.at 0)

/-- R116: `ALPHA_MAP[x]` is the product of `x` and `ALPHA`, for every byte `x`. -/
def Config.alphaMapOk (c : Config) : Bool :=
  (List.range 256).all fun x =>
    Nat.beq (c.alphaMap.at (byteOfNat x)).toNat (c.productByFormula (byteOfNat x) c.alpha).toNat

/-- A configuration is well-formed when R7 and R111 to R116 hold. R114 puts no condition on
`LOG_TABLE[0]`. -/
def Config.check (c : Config) : Bool :=
  c.memBlocksOk && c.expBijective && c.logInverse && c.pinnedLiterals && c.expWraps && c.alphaMapOk

/-- The premise "the configuration is well-formed" (70_reset_and_hazards.md R183 (2)). -/
abbrev Config.WellFormed (c : Config) : Prop := c.check = true

end Sys2Proof
end

