-- ==== Sys2Proof/Safety.lean ====
section
/-! DEFINITION. The terms claims are stated in: what a launch state is and when a run has gone wrong
(70_reset_and_hazards.md R183), the invariant of the block, and the blocks each command reads and writes
(20_memory.md R44). -/

namespace Sys2Proof.Machine

/-- The launch premises (1) and (2) of R183: no fault, a well-formed configuration. -/
def State.Launch (s : State) : Prop := s.fault = false ∧ s.cfg.WellFormed

/-- A run has gone wrong when `STATUS.FAULT = 1` in its end state (R183). -/
def State.GoneWrong (s : State) : Prop := s.fault = true

/-- The same state in a block built with another configuration, to compare two blocks that differ in a
parameter (10_state.md R31). -/
def State.withConfig (s : State) (c : Config) : State := { s with cfg := c }

/-- What every step keeps: `FAULT = 0` implies `CAUSE = 0` and `FCMD = 0` (10_state.md R26, R27);
`FAULT = 1` implies that `CAUSE` is the code of the fault of the word in `FCMD` (R26, R27,
60_exceptions.md R161); memory is in canonical form and lists blocks of `MEM` only. -/
structure State.Inv (s : State) : Prop where
  running : s.fault = false → s.cause = 0 ∧ s.fcmd = 0
  halted : s.fault = true → ∃ c, wordCause s.cfg s.fcmd = some c ∧ s.cause = c.code
  memWf : s.mem.wf
  memInRange : ∀ p ∈ s.mem, p.1 < s.cfg.memBlocks

/-- Block `a` is in the "reads" column of R44 for the command. -/
def readsBlock (w : WordWidth) (a : Nat) : Instr → Prop
  | .trn base stride => ∃ k < w.bits, a = base.toNat + k * stride.toNat
  | .trnd dst src stride =>
    (∃ k < w.bits, a = src.toNat + k * stride.toNat) ∨ dst.toNat ≤ a ∧ a < dst.toNat + w.bits
  | .trnr base _ => base.toNat ≤ a ∧ a < base.toNat + w.bits
  | .bsl _ src => src.toNat ≤ a ∧ a < src.toNat + 16
  | .ubsl _ src => src.toNat ≤ a ∧ a < src.toNat + 16
  | .gfmul _ _ => False
  | .gfmulc _ => False
  | .llkup _ src _ => a = src.toNat
  | .pmul _ x y => a = x.toNat ∨ a = y.toNat
  | .pmulc _ src => a = src.toNat
  | .bmul64 _ x y =>
    x.toNat ≤ a ∧ a < x.toNat + 64 ∨ y.toNat ≤ a ∧ a < y.toNat + 64

/-- Block `a` is in the "writes" column of R44 for the command. -/
def writesBlock (w : WordWidth) (a : Nat) : Instr → Prop
  | .trn base _ => base.toNat ≤ a ∧ a < base.toNat + w.bits
  | .trnd dst _ _ => dst.toNat ≤ a ∧ a < dst.toNat + w.bits
  | .trnr base stride => ∃ k < w.bits, a = base.toNat + k * stride.toNat
  | .bsl dst _ => dst.toNat ≤ a ∧ a < dst.toNat + 16
  | .ubsl dst _ => dst.toNat ≤ a ∧ a < dst.toNat + 16
  | .gfmul _ _ => False
  | .gfmulc _ => False
  | .llkup dst _ _ => a = dst.toNat
  | .pmul dst _ _ => a = dst.toNat
  | .pmulc dst _ => a = dst.toNat
  | .bmul64 dst _ _ => dst.toNat ≤ a ∧ a < dst.toNat + 64

end Sys2Proof.Machine
end

