-- ==== Sys2Proof/Certificates/Slice0/Obligations.lean ====
section
/-! DEFINITION. The statements for the provers, one `def Obligations.<Name> : Prop` each, listed in
OBLIGATIONS.json with the rules they rest on. -/

open Sys2Proof Sys2Proof.Machine

/-! ### Encoding (30_encoding.md) -/

/-- R60: the word as a number, and the fields of a word by bit position. -/
def Obligations.CommandWordIsTheWeightedSumOfItsFields : Prop :=
  (∀ f : Cw64, f.word.toNat =
      f.c.toNat * 2 ^ 48 + f.b.toNat * 2 ^ 32 + f.a.toNat * 2 ^ 16 + f.z.toNat * 2 ^ 8 + f.op.toNat) ∧
  ∀ w : Command, (Cw64.ofWord w).word = w ∧
    (Cw64.ofWord w).op.toNat = w.toNat % 2 ^ 8 ∧ (Cw64.ofWord w).z.toNat = w.toNat / 2 ^ 8 % 2 ^ 8 ∧
    (Cw64.ofWord w).a.toNat = w.toNat / 2 ^ 16 % 2 ^ 16 ∧
    (Cw64.ofWord w).b.toNat = w.toNat / 2 ^ 32 % 2 ^ 16 ∧
    (Cw64.ofWord w).c.toNat = w.toNat / 2 ^ 48

/-- R68: the eleven worked encodings, read by the decoder. -/
def Obligations.WorkedEncodingsDecodeToTheirCommands : Prop :=
  decode 0x0002000000100001 = .ok (.trn 0x0010 2) ∧
  decode 0x0001000001000002 = .ok (.trnd 0x0100 0x0000 1) ∧
  decode 0x0002000000100003 = .ok (.trnr 0x0010 2) ∧
  decode 0x0000000000200008 = .ok (.bsl 0x0020 0x0000) ∧
  decode 0x0000002000000009 = .ok (.ubsl 0x0000 0x0020) ∧
  decode 0x0013001300000010 = .ok (.gfmul 0x13 0x13) ∧
  decode 0x0000000200000011 = .ok (.gfmulc 0x02) ∧
  decode 0x0001000100020018 = .ok (.llkup 0x0002 0x0001 .exp) ∧
  decode 0x0002000100030019 = .ok (.pmul 0x0003 0x0001 0x0002) ∧
  decode 0x000000010003001A = .ok (.pmulc 0x0003 0x0001) ∧
  decode 0x0040000000800020 = .ok (.bmul64 0x0080 0x0000 0x0040)

/-- Decode and encode agree: no bit of a command is dropped by its word. -/
def Obligations.DecodeOfEncodeIsTheCommand : Prop := ∀ i : Instr, decode (encode i) = .ok i

/-- A legal word is the one encoding of its command, so the word a meaning records in `FCMD` is the word
as issued (10_state.md R27, log 11). -/
def Obligations.EncodeOfDecodeIsTheWord : Prop :=
  ∀ (w : Command) (i : Instr), decode w = .ok i → encode i = w

/-- R62: a word is a command of the table exactly when it meets the row's match and mask (and, for
`LLKUP`, the table select is not 3); and no word meets two rows. -/
def Obligations.DecoderAgreesWithTheOpcodeTable : Prop :=
  (∀ (w : Command) (m : String), (∃ i, decode w = .ok i ∧ i.mnemonic = m) ↔
      ∃ r ∈ opcodeTable, r.mnemonic = m ∧ r.matchesWord w = true) ∧
  ∀ w : Command, ∀ r ∈ opcodeTable, ∀ q ∈ opcodeTable,
    r.matchesWord w = true → q.matchesWord w = true → r = q

/-- R63: the illegal words are exactly those of (a) to (e), and each of them raises `ILLEGAL_COMMAND` in
a running block. -/
def Obligations.IllegalWordsAreExactlyThoseOfTheFiveCases : Prop :=
  (∀ w : Command, (∃ e, decode w = .error e) ↔
    ((Cw64.ofWord w).op.toNat ∉
        [0x01, 0x02, 0x03, 0x08, 0x09, 0x10, 0x11, 0x18, 0x19, 0x1A, 0x20] ∨
      (Cw64.ofWord w).z ≠ 0 ∨
      ((Cw64.ofWord w).op.toNat ∈ [0x10, 0x11] ∧ (Cw64.ofWord w).a ≠ 0 ∨
        (Cw64.ofWord w).op.toNat ∈ [0x01, 0x03] ∧ (Cw64.ofWord w).b ≠ 0 ∨
        (Cw64.ofWord w).op.toNat ∈ [0x08, 0x09, 0x11, 0x1A] ∧ (Cw64.ofWord w).c ≠ 0) ∨
      ((Cw64.ofWord w).op.toNat ∈ [0x10, 0x11] ∧ (Cw64.ofWord w).b.toNat / 256 ≠ 0 ∨
        (Cw64.ofWord w).op.toNat = 0x10 ∧ (Cw64.ofWord w).c.toNat / 256 ≠ 0) ∨
      (Cw64.ofWord w).op.toNat = 0x18 ∧
        ((Cw64.ofWord w).c.toNat / 4 ≠ 0 ∨ (Cw64.ofWord w).c.toNat % 4 = 3))) ∧
  ∀ (w : Command) (s : State), (∃ e, decode w = .error e) → s.fault = false →
    issue w s = .next { s with fault := true, cause := 1, fcmd := w }

/-! ### The step and the host (10_state.md, 20_memory.md) -/

/-- A step runs the decoded command: the word at the head of the host's moves is decoded and the command
executed on the state without that move; an illegal word faults in a running block and is ignored in a
halted one; with no move the block is idle. The list of moves is the model's (log 5, log 9, log 17). -/
def Obligations.StepRunsTheDecodedCommand : Prop :=
  (∀ (s : State) (cw : Command) (rest : List HostMove) (i : Instr),
    s.moves = .issue cw :: rest → decode cw = .ok i → step s = exec i { s with moves := rest }) ∧
  (∀ (s : State) (cw : Command) (rest : List HostMove) (e : Illegal),
    s.moves = .issue cw :: rest → decode cw = .error e →
    step s = .next (if s.fault then { s with moves := rest }
      else { s with moves := rest, fault := true, cause := 1, fcmd := cw })) ∧
  (∀ (s : State) (nbits w : Nat), step (s.withFetchWord nbits w) = issue (tableWord nbits w) s) ∧
  ∀ s : State, s.moves = [] → step s = .next s

/-- R31, R23: nothing the block does changes a parameter; a step takes exactly the first waiting move of
the host and leaves the others (the list is the model's, log 5). -/
def Obligations.StepKeepsTheConfigurationAndTakesOneMove : Prop :=
  ∀ s t : State, step s = .next t → t.cfg = s.cfg ∧ t.moves = s.moves.tail

/-- R32: the registers after power-on. The content of `MEM` is the model's free value (log 3). -/
def Obligations.PowerOnStateHoldsTheResetValues : Prop :=
  State.reset.sres = 0 ∧ State.reset.fault = false ∧ State.reset.cause = 0 ∧ State.reset.fcmd = 0 ∧
  State.reset.status = 0 ∧ ∀ a, State.reset.readBlock a = Config.powerOnBlock 0 a

/-- R180: the `RESET` move in any state, halted or running. The content of `MEM` is the free value of the
new epoch (log 3); that it does not depend on what `MEM` held before is the model's choice (log 24). -/
def Obligations.ResetMoveRestoresTheResetValues : Prop :=
  ∀ (s : State) (rest : List HostMove), s.moves = .reset :: rest →
    ∃ t, step s = .next t ∧ t.fault = false ∧ t.cause = 0 ∧ t.fcmd = 0 ∧ t.sres = 0 ∧ t.status = 0 ∧
      t.cfg = s.cfg ∧ t.moves = rest ∧ t.replies = s.replies ∧
      ∀ a, t.readBlock a = Config.powerOnBlock (s.epoch + 1) a

/-- R35: what each move of the host does. What a reading move returns is handed to the host at the head of
`replies`, the model's own field (log 6); outside `MEM` there is no transition (log 8). -/
def Obligations.HostMovesHaveTheirEffects : Prop :=
  (∀ (s : State) (cw : Command), makeMove (.issue cw) s = issue cw s) ∧
  (∀ (s : State) (a : Nat) (v : Block), a < s.cfg.memBlocks →
    ∃ t, makeMove (.hwr a v) s = .next t ∧ t = { s with mem := t.mem } ∧ t.readBlock a = v ∧
      ∀ b, b ≠ a → t.readBlock b = s.readBlock b) ∧
  (∀ (s : State) (a : Nat), a < s.cfg.memBlocks →
    makeMove (.hrd a) s = .next { s with replies := .block (s.readBlock a) :: s.replies }) ∧
  (∀ (s : State) (a : Nat) (v : Block), s.cfg.memBlocks ≤ a →
    makeMove (.hwr a v) s = .fault (.hostWriteOutsideMem a) ∧
    makeMove (.hrd a) s = .fault (.hostReadOutsideMem a)) ∧
  ∀ s : State,
    makeMove .hstatus s = .next { s with replies := .status s.status :: s.replies } ∧
    makeMove .hfcmd s = .next { s with replies := .fcmd s.fcmd :: s.replies } ∧
    makeMove .hsres s = .next { s with replies := .sres s.sres :: s.replies }

/-- R50: a host read returns the value of the latest write to that block: `HWR(a, v)`, then any moves of
which none writes block `a` or resets, then `HRD(a)` returns `v`. The lists of moves and of replies are the
model's (log 5, log 6). -/
def Obligations.HostReadReturnsTheLatestWrite : Prop :=
  ∀ (ms : List HostMove) (s t : State) (a : Nat) (v : Block),
    a < s.cfg.memBlocks → s.moves = .hwr a v :: (ms ++ [.hrd a]) →
    (∀ m ∈ ms, m ≠ .reset ∧ (∀ v', m ≠ .hwr a v') ∧
      ∀ cw i, m = .issue cw → decode cw = .ok i → ¬ writesBlock s.cfg.width a i) →
    Sys2Proof.core.run (ms.length + 2) s = .next t →
    t.replies.head? = some (.block v) ∧ t.readBlock a = v

/-- R26: the layout of `STATUS` as the host reads it. -/
def Obligations.StatusRegisterLayout : Prop :=
  ∀ s : State, s.status.getLsbD 0 = s.fault ∧ s.status.extractLsb' 1 3 = 0 ∧
    s.status.extractLsb' 4 4 = s.cause ∧ s.status.extractLsb' 8 24 = 0

/-! ### Invariant -/

/-- The state after reset meets the invariant and the launch premises of R183. That its configuration is
the reference one is the model's choice (log 2). -/
def Obligations.ResetStateMeetsTheInvariant : Prop := State.reset.Inv ∧ State.reset.Launch

/-- Every step keeps the invariant: `CAUSE` and `FCMD` are zero in a running block; in a halted one the
word in `FCMD` is one that faults, with the cause that `CAUSE` codes; memory stays canonical and inside
`[0, MEM_BLOCKS)`. The canonical form of the list is the model's (log 4). -/
def Obligations.EveryStepKeepsTheInvariant : Prop :=
  ∀ s t : State, s.Inv → step s = .next t → t.Inv

/-- R26: the invariant of `STATUS` follows: `FAULT = 1` implies `CAUSE` in 1 to 4, `FAULT = 0` implies
`CAUSE = 0`. -/
def Obligations.CauseIsZeroOrOneOfFourCodes : Prop :=
  ∀ s : State, s.Inv →
    (s.fault = false → s.cause = 0) ∧ (s.fault = true → 1 ≤ s.cause.toNat ∧ s.cause.toNat ≤ 4)

/-! ### Faults (60_exceptions.md) -/

/-- R163: fault entry. A word that faults in a running block sets `FAULT`, `CAUSE` and `FCMD` and changes
nothing else. -/
def Obligations.FaultEntryRecordsCauseAndWordOnly : Prop :=
  ∀ (s : State) (cw : Command) (c : Cause), s.fault = false → wordCause s.cfg cw = some c →
    issue cw s = .next { s with fault := true, cause := c.code, fcmd := cw }

/-- R164: a halted block ignores every command, accepts every other move, and leaves the halt by `RESET`
alone. -/
def Obligations.HaltedBlockIgnoresEveryCommand : Prop :=
  (∀ (s : State) (cw : Command), s.fault = true → issue cw s = .next s) ∧
  (∀ (s : State) (i : Instr), s.fault = true → exec i s = .next s) ∧
  (∀ (s : State) (m : HostMove), s.fault = true →
    (∀ a v, m = .hwr a v → a < s.cfg.memBlocks) → (∀ a, m = .hrd a → a < s.cfg.memBlocks) →
    ∃ t, makeMove m s = .next t) ∧
  ∀ (s t : State) (m : HostMove), s.fault = true → makeMove m s = .next t → t.fault = false →
    m = .reset

/-- R164, R165 along a run: once a run has gone wrong, and while no `RESET` is made, it stays wrong with
the same cause, command word and scalar result, however many moves follow. The list of moves is the
model's (log 5). -/
def Obligations.HaltIsStickyAlongEveryRun : Prop :=
  ∀ (n : Nat) (s t : State), s.GoneWrong → .reset ∉ s.moves → Sys2Proof.core.run n s = .next t →
    t.GoneWrong ∧ t.cause = s.cause ∧ t.fcmd = s.fcmd ∧ t.sres = s.sres

/-- R160: no data value can cause a fault: two running blocks of one configuration fault on the same
words with the same cause, whatever their memories and registers hold. -/
def Obligations.FaultIsDecidedByWordAndConfigurationAlone : Prop :=
  ∀ (s₁ s₂ t₁ t₂ : State) (cw : Command), s₁.cfg = s₂.cfg → s₁.fault = false → s₂.fault = false →
    issue cw s₁ = .next t₁ → issue cw s₂ = .next t₂ →
    t₁.fault = t₂.fault ∧ (t₁.fault = true → t₁.cause = t₂.cause ∧ t₁.fcmd = t₂.fcmd)

/-- R91, R123, R190: every command answers a next state, in every state and for all operands. -/
def Obligations.EveryCommandAnswersANextState : Prop :=
  ∀ (i : Instr) (s : State), ∃ t, exec i s = .next t

/-- The operand faults of the transpose commands, in the order of R162: stride 0 (cause 2), a region past
the end of `MEM` (cause 3), for `TRND` a destination that meets the source span (cause 4). -/
def Obligations.TransposeCommandsFaultInPriorityOrder : Prop :=
  (∀ (s : State) (base stride : Field), s.fault = false → stride = 0 →
    exec (.trn base stride) s =
      .next { s with fault := true, cause := 2, fcmd := encode (.trn base stride) } ∧
    exec (.trnr base stride) s =
      .next { s with fault := true, cause := 2, fcmd := encode (.trnr base stride) }) ∧
  (∀ (s : State) (base stride : Field), s.fault = false → stride ≠ 0 →
    s.cfg.memBlocks < base.toNat + (s.cfg.width.bits - 1) * stride.toNat + 1 →
    exec (.trn base stride) s =
      .next { s with fault := true, cause := 3, fcmd := encode (.trn base stride) } ∧
    exec (.trnr base stride) s =
      .next { s with fault := true, cause := 3, fcmd := encode (.trnr base stride) }) ∧
  (∀ (s : State) (dst src stride : Field), s.fault = false → stride = 0 →
    exec (.trnd dst src stride) s =
      .next { s with fault := true, cause := 2, fcmd := encode (.trnd dst src stride) }) ∧
  (∀ (s : State) (dst src stride : Field), s.fault = false → stride ≠ 0 →
    (s.cfg.memBlocks < src.toNat + (s.cfg.width.bits - 1) * stride.toNat + 1 ∨
      s.cfg.memBlocks < dst.toNat + s.cfg.width.bits) →
    exec (.trnd dst src stride) s =
      .next { s with fault := true, cause := 3, fcmd := encode (.trnd dst src stride) }) ∧
  ∀ (s : State) (dst src stride : Field), s.fault = false → stride ≠ 0 →
    src.toNat + (s.cfg.width.bits - 1) * stride.toNat + 1 ≤ s.cfg.memBlocks →
    dst.toNat + s.cfg.width.bits ≤ s.cfg.memBlocks →
    (∃ a, (dst.toNat ≤ a ∧ a < dst.toNat + s.cfg.width.bits) ∧
      src.toNat ≤ a ∧ a < src.toNat + (s.cfg.width.bits - 1) * stride.toNat + 1) →
    exec (.trnd dst src stride) s =
      .next { s with fault := true, cause := 4, fcmd := encode (.trnd dst src stride) }

/-- The operand faults of `BSL`, `UBSL` and `BMUL64`: range (cause 3) before overlap (cause 4). -/
def Obligations.BatchCommandsFaultInPriorityOrder : Prop :=
  (∀ (s : State) (dst src : Field), s.fault = false →
    (s.cfg.memBlocks < src.toNat + 16 ∨ s.cfg.memBlocks < dst.toNat + 16) →
    exec (.bsl dst src) s =
      .next { s with fault := true, cause := 3, fcmd := encode (.bsl dst src) } ∧
    exec (.ubsl dst src) s =
      .next { s with fault := true, cause := 3, fcmd := encode (.ubsl dst src) }) ∧
  (∀ (s : State) (dst src : Field), s.fault = false →
    src.toNat + 16 ≤ s.cfg.memBlocks → dst.toNat + 16 ≤ s.cfg.memBlocks →
    (∃ a, (dst.toNat ≤ a ∧ a < dst.toNat + 16) ∧ src.toNat ≤ a ∧ a < src.toNat + 16) →
    exec (.bsl dst src) s =
      .next { s with fault := true, cause := 4, fcmd := encode (.bsl dst src) } ∧
    exec (.ubsl dst src) s =
      .next { s with fault := true, cause := 4, fcmd := encode (.ubsl dst src) }) ∧
  (∀ (s : State) (dst a b : Field), s.fault = false →
    (s.cfg.memBlocks < a.toNat + 64 ∨ s.cfg.memBlocks < b.toNat + 64 ∨
      s.cfg.memBlocks < dst.toNat + 64) →
    exec (.bmul64 dst a b) s =
      .next { s with fault := true, cause := 3, fcmd := encode (.bmul64 dst a b) }) ∧
  ∀ (s : State) (dst a b : Field), s.fault = false →
    a.toNat + 64 ≤ s.cfg.memBlocks → b.toNat + 64 ≤ s.cfg.memBlocks →
    dst.toNat + 64 ≤ s.cfg.memBlocks →
    (∃ x, (dst.toNat ≤ x ∧ x < dst.toNat + 64) ∧
      (a.toNat ≤ x ∧ x < a.toNat + 64 ∨ b.toNat ≤ x ∧ x < b.toNat + 64)) →
    exec (.bmul64 dst a b) s =
      .next { s with fault := true, cause := 4, fcmd := encode (.bmul64 dst a b) }

/-- The operand faults of the lane commands: range (cause 3) before `dst = src` (cause 4). -/
def Obligations.LaneCommandsFaultInPriorityOrder : Prop :=
  (∀ (s : State) (dst src : Field) (table : TableSel), s.fault = false →
    (s.cfg.memBlocks ≤ src.toNat ∨ s.cfg.memBlocks ≤ dst.toNat) →
    exec (.llkup dst src table) s =
      .next { s with fault := true, cause := 3, fcmd := encode (.llkup dst src table) } ∧
    exec (.pmulc dst src) s =
      .next { s with fault := true, cause := 3, fcmd := encode (.pmulc dst src) }) ∧
  (∀ (s : State) (dst src : Field) (table : TableSel), s.fault = false →
    src.toNat < s.cfg.memBlocks → dst = src →
    exec (.llkup dst src table) s =
      .next { s with fault := true, cause := 4, fcmd := encode (.llkup dst src table) } ∧
    exec (.pmulc dst src) s =
      .next { s with fault := true, cause := 4, fcmd := encode (.pmulc dst src) }) ∧
  (∀ (s : State) (dst a b : Field), s.fault = false →
    (s.cfg.memBlocks ≤ a.toNat ∨ s.cfg.memBlocks ≤ b.toNat ∨ s.cfg.memBlocks ≤ dst.toNat) →
    exec (.pmul dst a b) s =
      .next { s with fault := true, cause := 3, fcmd := encode (.pmul dst a b) }) ∧
  ∀ (s : State) (dst a b : Field), s.fault = false →
    a.toNat < s.cfg.memBlocks → b.toNat < s.cfg.memBlocks → (dst = a ∨ dst = b) →
    exec (.pmul dst a b) s =
      .next { s with fault := true, cause := 4, fcmd := encode (.pmul dst a b) }

/-! ### Results and frames of the commands: where each completes, what it leaves -/

/-- R85: `TRN` completes for a nonzero stride and a span inside `MEM`; word `p` of the dense group at
`base` collects bit `p` of each row; no other block and no register changes. -/
def Obligations.TrnLeavesTheForwardTranspose : Prop :=
  ∀ (s : State) (base stride : Field), s.fault = false → stride ≠ 0 →
    base.toNat + (s.cfg.width.bits - 1) * stride.toNat + 1 ≤ s.cfg.memBlocks →
    ∃ t, exec (.trn base stride) s = .next t ∧ t = { s with mem := t.mem } ∧
      (∀ p < 128, ∀ k < s.cfg.width.bits,
        (wordOf s.cfg.width (t.readBlock (base.toNat + p / s.cfg.width.wordsPerBlock))
          (p % s.cfg.width.wordsPerBlock)).getLsbD k =
        (s.readBlock (base.toNat + k * stride.toNat)).getLsbD p) ∧
      ∀ a, ¬ (base.toNat ≤ a ∧ a < base.toNat + s.cfg.width.bits) → t.readBlock a = s.readBlock a

/-- R86: `TRND` completes for a nonzero stride, both regions inside `MEM` and the destination clear of
the source span; the transpose is ORed into the old content of the dense group at `dst`. -/
def Obligations.TrndOrsTheForwardTransposeIntoTheDestination : Prop :=
  ∀ (s : State) (dst src stride : Field), s.fault = false → stride ≠ 0 →
    src.toNat + (s.cfg.width.bits - 1) * stride.toNat + 1 ≤ s.cfg.memBlocks →
    dst.toNat + s.cfg.width.bits ≤ s.cfg.memBlocks →
    (dst.toNat + s.cfg.width.bits ≤ src.toNat ∨
      src.toNat + (s.cfg.width.bits - 1) * stride.toNat + 1 ≤ dst.toNat) →
    ∃ t, exec (.trnd dst src stride) s = .next t ∧ t = { s with mem := t.mem } ∧
      (∀ p < 128, ∀ k < s.cfg.width.bits,
        (wordOf s.cfg.width (t.readBlock (dst.toNat + p / s.cfg.width.wordsPerBlock))
          (p % s.cfg.width.wordsPerBlock)).getLsbD k =
        ((wordOf s.cfg.width (s.readBlock (dst.toNat + p / s.cfg.width.wordsPerBlock))
          (p % s.cfg.width.wordsPerBlock)).getLsbD k ||
        (s.readBlock (src.toNat + k * stride.toNat)).getLsbD p)) ∧
      ∀ a, ¬ (dst.toNat ≤ a ∧ a < dst.toNat + s.cfg.width.bits) → t.readBlock a = s.readBlock a

/-- R87: `TRNR` completes where `TRN` does; bit `p` of row `k` of the strided view is bit `k` of word `p`
of the dense group; blocks that are not rows keep their content. -/
def Obligations.TrnrLeavesTheInverseTranspose : Prop :=
  ∀ (s : State) (base stride : Field), s.fault = false → stride ≠ 0 →
    base.toNat + (s.cfg.width.bits - 1) * stride.toNat + 1 ≤ s.cfg.memBlocks →
    ∃ t, exec (.trnr base stride) s = .next t ∧ t = { s with mem := t.mem } ∧
      (∀ p < 128, ∀ k < s.cfg.width.bits,
        (t.readBlock (base.toNat + k * stride.toNat)).getLsbD p =
        (wordOf s.cfg.width (s.readBlock (base.toNat + p / s.cfg.width.wordsPerBlock))
          (p % s.cfg.width.wordsPerBlock)).getLsbD k) ∧
      ∀ a, (∀ k < s.cfg.width.bits, a ≠ base.toNat + k * stride.toNat) →
        t.readBlock a = s.readBlock a

/-- R102: `BSL` completes for two regions of 16 blocks inside `MEM` that do not overlap; lane `e` of row
`b` is byte `b` of element `e`; nothing else changes. -/
def Obligations.BslLeavesTheSlicedRows : Prop :=
  ∀ (s : State) (dst src : Field), s.fault = false →
    src.toNat + 16 ≤ s.cfg.memBlocks → dst.toNat + 16 ≤ s.cfg.memBlocks →
    (dst.toNat + 16 ≤ src.toNat ∨ src.toNat + 16 ≤ dst.toNat) →
    ∃ t, exec (.bsl dst src) s = .next t ∧ t = { s with mem := t.mem } ∧
      (∀ b < 16, ∀ e < 16, byteOf (t.readBlock (dst.toNat + b)) e =
        byteOf (s.readBlock (src.toNat + e)) b) ∧
      ∀ a, ¬ (dst.toNat ≤ a ∧ a < dst.toNat + 16) → t.readBlock a = s.readBlock a

/-- R103: `UBSL` completes where `BSL` does; byte `b` of element `e` is lane `e` of row `b`. -/
def Obligations.UbslLeavesTheElements : Prop :=
  ∀ (s : State) (dst src : Field), s.fault = false →
    src.toNat + 16 ≤ s.cfg.memBlocks → dst.toNat + 16 ≤ s.cfg.memBlocks →
    (dst.toNat + 16 ≤ src.toNat ∨ src.toNat + 16 ≤ dst.toNat) →
    ∃ t, exec (.ubsl dst src) s = .next t ∧ t = { s with mem := t.mem } ∧
      (∀ e < 16, ∀ b < 16, byteOf (t.readBlock (dst.toNat + e)) b =
        byteOf (s.readBlock (src.toNat + b)) e) ∧
      ∀ a, ¬ (dst.toNat ≤ a ∧ a < dst.toNat + 16) → t.readBlock a = s.readBlock a

/-- R118, R117: `GFMUL` completes in every running block and changes `SRES` alone: 0 for a zero operand,
else the antilogarithm of the sum of the logarithms less 255 when it is above 254. -/
def Obligations.GfmulLeavesTheProductInSres : Prop :=
  ∀ (s : State) (lhs rhs : Byte), s.fault = false →
    exec (.gfmul lhs rhs) s = .next { s with
      sres :=
        if lhs = 0 ∨ rhs = 0 then 0
        else if (s.cfg.logTable.at lhs).toNat + (s.cfg.logTable.at rhs).toNat > 254 then
          s.cfg.expTable.at
            (BitVec.ofNat 8 ((s.cfg.logTable.at lhs).toNat + (s.cfg.logTable.at rhs).toNat - 255))
        else
          s.cfg.expTable.at
            (BitVec.ofNat 8 ((s.cfg.logTable.at lhs).toNat + (s.cfg.logTable.at rhs).toNat)) }

/-- R120: `GFMULC` completes in every running block and changes `SRES` alone. -/
def Obligations.GfmulcLeavesTheAlphaMapEntryInSres : Prop :=
  ∀ (s : State) (rhs : Byte), s.fault = false →
    exec (.gfmulc rhs) s = .next { s with sres := s.cfg.alphaMap.at rhs }

/-- R134: `LLKUP` completes for two different blocks of `MEM`; lane `l` of the destination is the entry of
the selected table at lane `l` of the source. -/
def Obligations.LlkupLeavesSixteenTableEntries : Prop :=
  ∀ (s : State) (dst src : Field) (table : TableSel), s.fault = false →
    src.toNat < s.cfg.memBlocks → dst.toNat < s.cfg.memBlocks → dst ≠ src →
    ∃ t, exec (.llkup dst src table) s = .next t ∧ t = { s with mem := t.mem } ∧
      (∀ l < 16, byteOf (t.readBlock dst.toNat) l =
        (match table with
          | .log => s.cfg.logTable
          | .exp => s.cfg.expTable
          | .alpha => s.cfg.alphaMap).at (byteOf (s.readBlock src.toNat) l)) ∧
      ∀ a, a ≠ dst.toNat → t.readBlock a = s.readBlock a

/-- R137: `PMUL` completes for a destination other than its sources, all in `MEM` (`a = b` is legal); lane
`l` is `GMUL` of the lanes `l`, which is `PMF(va, vb)` in a well-formed configuration. -/
def Obligations.PmulLeavesSixteenProducts : Prop :=
  ∀ (s : State) (dst a b : Field), s.fault = false →
    a.toNat < s.cfg.memBlocks → b.toNat < s.cfg.memBlocks → dst.toNat < s.cfg.memBlocks →
    dst ≠ a → dst ≠ b →
    ∃ t, exec (.pmul dst a b) s = .next t ∧ t = { s with mem := t.mem } ∧
      (∀ l < 16, byteOf (t.readBlock dst.toNat) l =
        gmul s.cfg (byteOf (s.readBlock a.toNat) l) (byteOf (s.readBlock b.toNat) l)) ∧
      (s.cfg.WellFormed → t.readBlock dst.toNat =
        packedMultiply s.cfg (s.readBlock a.toNat) (s.readBlock b.toNat)) ∧
      ∀ x, x ≠ dst.toNat → t.readBlock x = s.readBlock x

/-- R138: `PMULC` completes for two different blocks of `MEM`; lane `l` is `ALPHA_MAP` of lane `l`, which
in a well-formed configuration is the product by `ALPHA`. -/
def Obligations.PmulcLeavesSixteenProductsByAlpha : Prop :=
  ∀ (s : State) (dst src : Field), s.fault = false →
    src.toNat < s.cfg.memBlocks → dst.toNat < s.cfg.memBlocks → dst ≠ src →
    ∃ t, exec (.pmulc dst src) s = .next t ∧ t = { s with mem := t.mem } ∧
      (∀ l < 16, byteOf (t.readBlock dst.toNat) l =
        s.cfg.alphaMap.at (byteOf (s.readBlock src.toNat) l)) ∧
      (s.cfg.WellFormed → ∀ l < 16, byteOf (t.readBlock dst.toNat) l =
        gmul s.cfg (byteOf (s.readBlock src.toNat) l) s.cfg.alpha) ∧
      ∀ x, x ≠ dst.toNat → t.readBlock x = s.readBlock x

/-- R152: `BMUL64` completes for three regions of 64 blocks in `MEM`, the destination clear of both
sources (which may overlap); element `e` is `TOWER_MUL128` of the elements `e`, whatever function the
configuration has for it (log 7). -/
def Obligations.Bmul64LeavesSixtyFourTowerProducts : Prop :=
  ∀ (s : State) (dst a b : Field), s.fault = false →
    a.toNat + 64 ≤ s.cfg.memBlocks → b.toNat + 64 ≤ s.cfg.memBlocks →
    dst.toNat + 64 ≤ s.cfg.memBlocks →
    (dst.toNat + 64 ≤ a.toNat ∨ a.toNat + 64 ≤ dst.toNat) →
    (dst.toNat + 64 ≤ b.toNat ∨ b.toNat + 64 ≤ dst.toNat) →
    ∃ t, exec (.bmul64 dst a b) s = .next t ∧ t = { s with mem := t.mem } ∧
      (∀ e < 64, t.readBlock (dst.toNat + e) =
        towerMul128 s.cfg (s.readBlock (a.toNat + e)) (s.readBlock (b.toNat + e))) ∧
      ∀ x, ¬ (dst.toNat ≤ x ∧ x < dst.toNat + 64) → t.readBlock x = s.readBlock x

/-- V-BM1, R151: any function can be supplied as `TOWER_MUL128`, and `BMUL64` then leaves its values. That the
function is supplied as plain data is the model's choice (log 7). -/
def Obligations.Bmul64LeavesTheValuesOfAnySuppliedFunction : Prop :=
  ∀ F : Block → Block → Block, ∃ T : TowerMul, ∀ (s : State) (dst a b : Field),
    s.cfg.tower = T → s.fault = false →
    a.toNat + 64 ≤ s.cfg.memBlocks → b.toNat + 64 ≤ s.cfg.memBlocks →
    dst.toNat + 64 ≤ s.cfg.memBlocks →
    (dst.toNat + 64 ≤ a.toNat ∨ a.toNat + 64 ≤ dst.toNat) →
    (dst.toNat + 64 ≤ b.toNat ∨ b.toNat + 64 ≤ dst.toNat) →
    ∃ t, exec (.bmul64 dst a b) s = .next t ∧ t = { s with mem := t.mem } ∧
      (∀ e < 64, t.readBlock (dst.toNat + e) =
        F (s.readBlock (a.toNat + e)) (s.readBlock (b.toNat + e))) ∧
      ∀ x, ¬ (dst.toNat ≤ x ∧ x < dst.toNat + 64) → t.readBlock x = s.readBlock x

/-- R151, R155: the product depends on its arguments and the configuration's function alone; two blocks that
differ only in that function execute every command but `BMUL64` alike, and fault alike on `BMUL64`, whose
operand checks do not depend on it. -/
def Obligations.TowerProductIsReadByBmul64Alone : Prop :=
  (∀ (c d : Config) (x y : Block), c.tower = d.tower → towerMul128 c x y = towerMul128 d x y) ∧
  (∀ (s t : State) (i : Instr) (T : TowerMul), (∀ dst a b, i ≠ .bmul64 dst a b) →
    exec i s = .next t →
    exec i (s.withConfig { s.cfg with tower := T }) =
      .next (t.withConfig { t.cfg with tower := T })) ∧
  ∀ (s t u : State) (dst a b : Field) (T : TowerMul), exec (.bmul64 dst a b) s = .next t →
    exec (.bmul64 dst a b) (s.withConfig { s.cfg with tower := T }) = .next u →
    u = { t.withConfig { t.cfg with tower := T } with mem := u.mem } ∧ (t.fault = true → u.mem = t.mem)

/-- R28: `GFMUL` and `GFMULC` write `SRES` with their product; no other command, no faulting command and
no ignored command writes it. (`RESET`, which is no command, does.) -/
def Obligations.SresIsWrittenByNoOtherCommand : Prop :=
  (∀ (s : State) (lhs rhs : Byte), s.fault = false →
    ∃ t, exec (.gfmul lhs rhs) s = .next t ∧ t.sres = gmul s.cfg lhs rhs) ∧
  (∀ (s : State) (rhs : Byte), s.fault = false →
    ∃ t, exec (.gfmulc rhs) s = .next t ∧ t.sres = gmulc s.cfg rhs) ∧
  (∀ (s t : State) (i : Instr), i.mnemonic ≠ "GFMUL" → i.mnemonic ≠ "GFMULC" →
    exec i s = .next t → t.sres = s.sres) ∧
  ∀ (s t : State) (cw : Command), issue cw s = .next t → t.fault = true → t.sres = s.sres

/-- R44: the "reads" and "writes" columns. No block outside the writes column changes; the blocks of the
writes column and `SRES` depend on no block outside the reads column (nor on anything but the operands
and the configuration); every block of the writes column is written, even when its value is the old
one: the model lists it among the written blocks of `MEM`, a list that is the model's choice (log 4). -/
def Obligations.CommandsReadAndWriteTheirRegionsOnly : Prop :=
  (∀ (i : Instr) (s t : State), exec i s = .next t →
    ∀ a, ¬ writesBlock s.cfg.width a i → t.readBlock a = s.readBlock a) ∧
  (∀ (i : Instr) (s₁ s₂ t₁ t₂ : State), s₁.cfg = s₂.cfg → s₁.sres = s₂.sres →
    s₁.fault = false → s₂.fault = false →
    (∀ a, readsBlock s₁.cfg.width a i → s₁.readBlock a = s₂.readBlock a) →
    exec i s₁ = .next t₁ → exec i s₂ = .next t₂ → t₁.fault = false →
    t₁.sres = t₂.sres ∧
      ∀ a, writesBlock s₁.cfg.width a i → t₁.readBlock a = t₂.readBlock a) ∧
  ∀ (i : Instr) (s t : State), s.fault = false → exec i s = .next t → t.fault = false →
    ∀ a, writesBlock s.cfg.width a i → (t.mem.find? a).isSome = true

/-! ### Blocks, words, bytes, regions (00_scope.md, 20_memory.md) -/

/-- R12: words and bytes of a block by bit position, and the replacement of one of them. -/
def Obligations.WordsAndBytesOfABlock : Prop :=
  ∀ (w : WordWidth) (v : Block),
    (∀ m < w.wordsPerBlock, ∀ j < w.bits, (wordOf w v m).getLsbD j = v.getLsbD (w.bits * m + j)) ∧
    (∀ n < 16, ∀ j < 8, (byteOf v n).getLsbD j = v.getLsbD (8 * n + j)) ∧
    (∀ m < w.wordsPerBlock, ∀ x : BitVec w.bits, ∀ n < w.wordsPerBlock,
      wordOf w (setWord w v m x) n = if n = m then x else wordOf w v n) ∧
    ∀ m < 16, ∀ x : Byte, ∀ n < 16, byteOf (setByte v m x) n = if n = m then x else byteOf v n

/-- R13: writing a word of a region replaces that word and nothing else: no other word, no other block, no
register. -/
def Obligations.WordWriteReplacesThatWordOnly : Prop :=
  ∀ (s : State) (a n : Nat) (x : BitVec s.cfg.width.bits),
    s.writeWord a n x = { s with mem := (s.writeWord a n x).mem } ∧
    (s.writeWord a n x).readWord a n = x ∧
    (∀ m, m ≠ n → (s.writeWord a n x).readWord a m = s.readWord a m) ∧
    ∀ b, b ≠ a + n / s.cfg.width.wordsPerBlock → (s.writeWord a n x).readBlock b = s.readBlock b

/-- R41: the views of one block agree: byte `n` lies in word `(8*n) div W` at bit `(8*n) mod W`, and bit
`p` is bit `p mod W` of word `p div W` and bit `p mod 8` of byte `p div 8`. -/
def Obligations.MixedWidthViewsAgree : Prop :=
  ∀ (w : WordWidth) (v : Block),
    (∀ n < 16, byteOf v n = (wordOf w v (8 * n / w.bits)).extractLsb' (8 * n % w.bits) 8) ∧
    ∀ p < 128, v.getLsbD p = (wordOf w v (p / w.bits)).getLsbD (p % w.bits) ∧
      v.getLsbD p = (byteOf v (p / 8)).getLsbD (p % 8)

/-- R16: regions overlap when their intersection is not empty; `inrange`; the span of a view. -/
def Obligations.RegionTestsSayWhatTheRegionsAre : Prop :=
  (∀ r q : Region, r.overlaps q = true ↔
    ∃ a, (r.base ≤ a ∧ a < r.base + r.size) ∧ q.base ≤ a ∧ a < q.base + q.size) ∧
  (∀ (r : Region) (n : Nat), r.inRange n = true ↔ r.base + r.size ≤ n) ∧
  ∀ (w : WordWidth) (a st x : Nat),
    ((span w a st).base ≤ x ∧ x < (span w a st).base + (span w a st).size) ↔
      a ≤ x ∧ x < a + (w.bits - 1) * st + 1

/-! ### Transpose and slice functions (40_bit_transpose.md, 41_byte_slice.md) -/

/-- R82: `T[(i << LOG2W) + j][k] = WORDOF(R[k], i)[j]` for the words of the dense group, and `TRF` is a
bijection. -/
def Obligations.ForwardTransposeFormula : Prop :=
  ∀ w : WordWidth,
    (∀ (R : Nat → Block) (i j k : Nat), i < w.wordsPerBlock → j < w.bits → k < w.bits →
      (wordOf w (transposeForward w R ((i <<< w.logBits + j) / w.wordsPerBlock))
        ((i <<< w.logBits + j) % w.wordsPerBlock)).getLsbD k = (wordOf w (R k) i).getLsbD j) ∧
    (∀ R R' : Nat → Block,
      (∀ t < w.bits, transposeForward w R t = transposeForward w R' t) → ∀ k < w.bits, R k = R' k) ∧
    ∀ D : Nat → Block, ∃ R : Nat → Block, ∀ t < w.bits, transposeForward w R t = D t

/-- R84: `TRI` undoes `TRF` and `TRF` undoes `TRI`, and `TRI` is the only function that undoes `TRF`. -/
def Obligations.InverseTransposeIsTheExactInverse : Prop :=
  ∀ w : WordWidth,
    (∀ (D : Nat → Block) (p k : Nat), p < 128 → k < w.bits →
      (transposeInverse w D k).getLsbD p =
        (wordOf w (D (p / w.wordsPerBlock)) (p % w.wordsPerBlock)).getLsbD k) ∧
    (∀ (R : Nat → Block), ∀ k < w.bits, transposeInverse w (transposeForward w R) k = R k) ∧
    (∀ (D : Nat → Block), ∀ t < w.bits, transposeForward w (transposeInverse w D) t = D t) ∧
    ∀ G : (Nat → Block) → Nat → Block,
      (∀ D D' : Nat → Block, (∀ t < w.bits, D t = D' t) → ∀ k < w.bits, G D k = G D' k) →
      (∀ R : Nat → Block, ∀ k < w.bits, G (transposeForward w R) k = R k) →
      ∀ D : Nat → Block, ∀ k < w.bits, G D k = transposeInverse w D k

/-- R90: the forward transpose is not its own inverse in general, for any word width. -/
def Obligations.ForwardTransposeIsNotItsOwnInverse : Prop :=
  ∀ w : WordWidth, ∃ R : Nat → Block, ∃ t < w.bits,
    transposeForward w (transposeForward w R) t ≠ R t

/-- R88: round trip of `TRN` and `TRNR` with the same base and stride, in both orders, for every stride;
between them anything may happen that leaves the span as it is. -/
def Obligations.TransposeRoundTripRestoresTheView : Prop :=
  (∀ (s s₁ s₂ s₃ : State) (base stride : Field),
    exec (.trn base stride) s = .next s₁ → s₁.fault = false →
    s₂.cfg = s₁.cfg →
    (∀ a, base.toNat ≤ a → a < base.toNat + (s.cfg.width.bits - 1) * stride.toNat + 1 →
      s₂.readBlock a = s₁.readBlock a) →
    exec (.trnr base stride) s₂ = .next s₃ → s₃.fault = false →
    (∀ k < s.cfg.width.bits, s₃.readBlock (base.toNat + k * stride.toNat) =
      s.readBlock (base.toNat + k * stride.toNat)) ∧
    ∀ a, base.toNat ≤ a → a < base.toNat + s.cfg.width.bits →
      (∀ k < s.cfg.width.bits, a ≠ base.toNat + k * stride.toNat) →
      s₃.readBlock a = s₁.readBlock a) ∧
  ∀ (s s₁ s₂ s₃ : State) (base stride : Field),
    exec (.trnr base stride) s = .next s₁ → s₁.fault = false →
    s₂.cfg = s₁.cfg →
    (∀ a, base.toNat ≤ a → a < base.toNat + (s.cfg.width.bits - 1) * stride.toNat + 1 →
      s₂.readBlock a = s₁.readBlock a) →
    exec (.trn base stride) s₂ = .next s₃ → s₃.fault = false →
    ∀ a, base.toNat ≤ a → a < base.toNat + s.cfg.width.bits → s₃.readBlock a = s.readBlock a

/-- R86 corner cases (a), (d): into an all-zero destination `TRND` leaves the group that `TRN` of the same
view leaves; issued twice, the second changes no block and no register. -/
def Obligations.TrndOnCleanAndOnRepeatedDestination : Prop :=
  (∀ (s t u : State) (dst src stride : Field), s.fault = false →
    (∀ k < s.cfg.width.bits, s.readBlock (dst.toNat + k) = 0) →
    exec (.trnd dst src stride) s = .next t → t.fault = false →
    exec (.trn src stride) s = .next u →
    ∀ k < s.cfg.width.bits, t.readBlock (dst.toNat + k) = u.readBlock (src.toNat + k)) ∧
  ∀ (s t u : State) (dst src stride : Field),
    exec (.trnd dst src stride) s = .next t → exec (.trnd dst src stride) t = .next u →
    u = { t with mem := u.mem } ∧ ∀ a, u.readBlock a = t.readBlock a

/-- R100, R101: `BYTEOF(S[b], e) = BYTEOF(E[e], b)`; the inverse is the same function of 16 blocks and
undoes it. -/
def Obligations.ByteSliceIsItsOwnInverse : Prop :=
  (∀ (E : Nat → Block) (b e : Nat), b < 16 → e < 16 →
    byteOf (byteSlice E b) e = byteOf (E e) b) ∧
  (∀ (S : Nat → Block) (e b : Nat), e < 16 → b < 16 →
    byteOf (byteUnslice S e) b = byteOf (S b) e) ∧
  (∀ (S : Nat → Block) (k : Nat), byteUnslice S k = byteSlice S k) ∧
  ∀ (E : Nat → Block), ∀ e < 16, byteUnslice (byteSlice E) e = E e

/-- R104: `UBSL` after `BSL` restores the batch, and `BSL` after `UBSL`; between them anything may happen
that leaves the intermediate region as it is. -/
def Obligations.ByteSliceRoundTripRestoresTheBatch : Prop :=
  ∀ (s s₁ s₂ s₃ : State) (x r y : Field), s.fault = false → s₂.fault = false →
    (exec (.bsl r x) s = .next s₁ ∧ exec (.ubsl y r) s₂ = .next s₃ ∨
      exec (.ubsl r x) s = .next s₁ ∧ exec (.bsl y r) s₂ = .next s₃) →
    s₁.fault = false → s₃.fault = false →
    (∀ a, r.toNat ≤ a → a < r.toNat + 16 → s₂.readBlock a = s₁.readBlock a) →
    ∀ e < 16, s₃.readBlock (y.toNat + e) = s.readBlock (x.toNat + e)

/-- R105: the byte-slice commands do not depend on the word width. -/
def Obligations.ByteSliceIgnoresTheWordWidth : Prop :=
  ∀ (s t : State) (w : WordWidth) (dst src : Field),
    (exec (.bsl dst src) s = .next t →
      exec (.bsl dst src) { s with cfg := { s.cfg with width := w } } =
        .next { t with cfg := { t.cfg with width := w } }) ∧
    (exec (.ubsl dst src) s = .next t →
      exec (.ubsl dst src) { s with cfg := { s.cfg with width := w } } =
        .next { t with cfg := { t.cfg with width := w } })

/-! ### Table arithmetic (42_gf256_scalar.md, 43_gf256_lanes.md) -/

/-- R117: the scalar product is 0 for a zero operand and otherwise the antilogarithm of the sum of the
logarithms, less 255 when it is above 254; in a well-formed configuration that is the sum modulo 255, and
`LOG_TABLE[0]` and `EXP_TABLE[255]` are never read. -/
def Obligations.ScalarProductAddsLogarithmsModulo255 : Prop :=
  (∀ (c : Config) (lhs rhs : Byte),
    gmul c lhs rhs =
      if lhs = 0 ∨ rhs = 0 then 0
      else if (c.logTable.at lhs).toNat + (c.logTable.at rhs).toNat > 254 then
        c.expTable.at (BitVec.ofNat 8 ((c.logTable.at lhs).toNat + (c.logTable.at rhs).toNat - 255))
      else c.expTable.at (BitVec.ofNat 8 ((c.logTable.at lhs).toNat + (c.logTable.at rhs).toNat))) ∧
  (∀ (c : Config) (lhs rhs : Byte), c.WellFormed →
    gmul c lhs rhs =
      if lhs = 0 ∨ rhs = 0 then 0
      else c.expTable.at
        (BitVec.ofNat 8 (((c.logTable.at lhs).toNat + (c.logTable.at rhs).toNat) % 255))) ∧
  ∀ (c d : Config) (lhs rhs : Byte), c.WellFormed →
    (∀ x, x ≠ 0 → d.logTable.at x = c.logTable.at x) →
    (∀ x, x ≠ 255 → d.expTable.at x = c.expTable.at x) → gmul d lhs rhs = gmul c lhs rhs

/-- R121: the laws of the product in every well-formed configuration. -/
def Obligations.ScalarProductLaws : Prop :=
  ∀ c : Config, c.WellFormed →
    (∀ a b, gmul c a b = gmul c b a) ∧ (∀ a, gmul c a 1 = a) ∧
    (∀ a, gmul c a 0 = 0 ∧ gmul c 0 a = 0) ∧
    (gmul c 1 1 = c.expTable.at 0 ∧ c.expTable.at 0 = 1) ∧
    gmulc c 0 = 0 ∧ (∀ r, gmulc c r = gmul c r c.alpha) ∧
    (∀ a b, a ≠ 0 → b ≠ 0 → gmul c a b ≠ 0) ∧
    ∀ a b d, gmul c (gmul c a b) d = gmul c a (gmul c b d)

/-- R116: with `ALPHA` nonzero, `ALPHA_MAP` is a bijection of the bytes that is 0 only at 0. -/
def Obligations.AlphaMapIsABijectionForNonzeroAlpha : Prop :=
  ∀ c : Config, c.WellFormed → c.alpha ≠ 0 →
    (∀ x, gmulc c x = 0 → x = 0) ∧ (∀ x y, gmulc c x = gmulc c y → x = y) ∧
    ∀ y, ∃ x, gmulc c x = y

/-- R114: the sentinel `LOG_TABLE[0]` may be any byte: another value leaves the configuration well-formed
and every product the same, scalar or packed; every command but `LLKUP` of the logarithm table does the
same with it, and that one outside its destination block and in the lanes whose index is not 0; it returns the sentinel in a lane whose
index is 0; in `REF` it is 0 (the tables of `REF` are presumed, log 2). -/
def Obligations.LogSentinelIsFreeAndVisibleOnlyInLlkup : Prop :=
  (∀ c d : Config, c.WellFormed → d = { c with logTable := d.logTable } →
    (∀ x, x ≠ 0 → d.logTable.at x = c.logTable.at x) →
    d.WellFormed ∧ (∀ a b, gmul d a b = gmul c a b) ∧
      ∀ a b, packedMultiply d a b = packedMultiply c a b) ∧
  (∀ (s t : State) (i : Instr) (T : Table), (∀ x, x ≠ 0 → T.at x = s.cfg.logTable.at x) →
    (∀ dst src, i ≠ .llkup dst src .log) → exec i s = .next t →
    exec i (s.withConfig { s.cfg with logTable := T }) =
      .next (t.withConfig { t.cfg with logTable := T })) ∧
  (∀ (s t u : State) (dst src : Field) (T : Table),
    (∀ x, x ≠ 0 → T.at x = s.cfg.logTable.at x) →
    exec (.llkup dst src .log) s = .next t →
    exec (.llkup dst src .log) (s.withConfig { s.cfg with logTable := T }) = .next u →
    u = { t.withConfig { t.cfg with logTable := T } with mem := u.mem } ∧
      (∀ l < 16, byteOf (s.readBlock src.toNat) l ≠ 0 →
        byteOf (u.readBlock dst.toNat) l = byteOf (t.readBlock dst.toNat) l) ∧
      ∀ a, a ≠ dst.toNat → u.readBlock a = t.readBlock a) ∧
  (∀ (s t : State) (dst src : Field) (l : Nat), s.fault = false →
    exec (.llkup dst src .log) s = .next t → t.fault = false → l < 16 →
    byteOf (s.readBlock src.toNat) l = 0 →
    byteOf (t.readBlock dst.toNat) l = s.cfg.logTable.at 0) ∧
  Config.reference.logTable.at 0 = 0

/-- R133: the quadrant technique looks up the whole table: `LANE_LOOKUP(T, idx)[l] = T[idx[l]]`. -/
def Obligations.QuadrantLookupIsTheTableLookup : Prop :=
  ∀ (t : Table) (idx : Block), ∀ l < 16, byteOf (laneLookup t idx) l = t.at (byteOf idx l)

/-- R136: the packed multiply is, lane by lane, the scalar multiply. -/
def Obligations.PackedMultiplyIsSixteenScalarMultiplies : Prop :=
  ∀ (c : Config) (a b : Block), c.WellFormed →
    ∀ l < 16, byteOf (packedMultiply c a b) l = gmul c (byteOf a l) (byteOf b l)

/-- R138 corner cases: `PMULC`, `LLKUP` with `ALPHA`, and `PMUL` by a block whose 16 lanes are all `ALPHA`
leave the same block. -/
def Obligations.PmulcLlkupAlphaAndPmulByAlphaAgree : Prop :=
  ∀ (s t₁ t₂ t₃ : State) (dst src q : Field), s.Launch →
    (∀ l < 16, byteOf (s.readBlock q.toNat) l = s.cfg.alpha) →
    exec (.pmulc dst src) s = .next t₁ → t₁.fault = false →
    exec (.llkup dst src .alpha) s = .next t₂ →
    exec (.pmul dst src q) s = .next t₃ → t₃.fault = false →
    t₁ = t₂ ∧ t₁ = t₃

/-- V-GF0: the reference tables meet every rule of a well-formed configuration and the named property
`TablesAreField` of R122. That the model's reference configuration has these tables is its choice (log 2). -/
def Obligations.ReferenceTablesAreWellFormedAndAField : Prop :=
  Config.reference.WellFormed ∧ TablesAreField Config.reference
end

