-- ==== Sys2Proof/Laws/Bits.lean ====
section
/-! SUPPORT. Bits, lanes and words of a block: what `bitsOf`, `lanesOf`, `byteOf` and `wordOf` hold. -/

namespace Sys2Proof.Machine

theorem bits_pos (w : WordWidth) : 0 < w.bits := by cases w <;> decide

theorem wordsPerBlock_pos (w : WordWidth) : 0 < w.wordsPerBlock := by cases w <;> decide

/-- `W * WPB = 128` (00_scope.md R5). -/
theorem bits_mul_wordsPerBlock (w : WordWidth) : w.bits * w.wordsPerBlock = 128 := by
  cases w <;> decide

/-- `W = 2 ^ LOG2W` (R5). -/
theorem two_pow_logBits (w : WordWidth) : 2 ^ w.logBits = w.bits := by cases w <;> decide

theorem natOfDigits_lt (w n : Nat) (f : Nat → BitVec w) : natOfDigits w n f < 2 ^ (w * n) := by
  induction n with
  | zero => simp [natOfDigits]
  | succ n ih =>
    have h := (f n).isLt
    have hm : 2 ^ (w * n) * (f n).toNat + 2 ^ (w * n) ≤ 2 ^ (w * n) * 2 ^ w := by
      rw [← Nat.mul_succ]; exact Nat.mul_le_mul_left _ h
    rw [natOfDigits, Nat.mul_succ, Nat.pow_add]
    omega

/-- Bit `j` of a number given by its digits is bit `j mod w` of digit `j div w`. -/
theorem natOfDigits_testBit {w : Nat} (hw : 0 < w) (n : Nat) (f : Nat → BitVec w) (j : Nat) :
    (natOfDigits w n f).testBit j = (decide (j < w * n) && (f (j / w)).getLsbD (j % w)) := by
  induction n with
  | zero => simp [natOfDigits]
  | succ n ih =>
    rw [natOfDigits, Nat.testBit_two_pow_mul_add _ (natOfDigits_lt w n f), ih]
    by_cases h : j < w * n
    · have h' : j < w * (n + 1) := by rw [Nat.mul_succ]; omega
      simp [h, h']
    · obtain ⟨d, rfl⟩ : ∃ d, j = w * n + d := ⟨j - w * n, by omega⟩
      by_cases hd : d < w
      · have h' : w * n + d < w * (n + 1) := by rw [Nat.mul_succ]; omega
        have hq : (w * n + d) / w = n := by
          rw [Nat.mul_add_div hw, Nat.div_eq_of_lt hd, Nat.add_zero]
        have hr : (w * n + d) % w = d := by rw [Nat.mul_add_mod, Nat.mod_eq_of_lt hd]
        simp [h', hq, hr, BitVec.testBit_toNat]
      · have h' : ¬ w * n + d < w * (n + 1) := by rw [Nat.mul_succ]; omega
        have ht : (f n).toNat.testBit d = false := by
          rw [BitVec.testBit_toNat]; exact BitVec.getLsbD_of_ge _ _ (by omega)
        simp [h', ht]

@[simp] theorem bitsOf_getLsbD (n : Nat) (f : Nat → Bool) (j : Nat) :
    (bitsOf n f).getLsbD j = (decide (j < n) && f j) := by
  rw [bitsOf, BitVec.getLsbD_ofNat, natOfDigits_testBit Nat.one_pos]
  by_cases h : j < n <;> simp [h, Nat.mod_one]

theorem lanesOf_getLsbD (f : Nat → Byte) (p : Nat) :
    (lanesOf f).getLsbD p = (decide (p < 128) && (f (p / 8)).getLsbD (p % 8)) := by
  rw [lanesOf, BitVec.getLsbD_ofNat, natOfDigits_testBit (by decide)]
  by_cases h : p < 128 <;> simp [h]

theorem byteOf_getLsbD (v : Block) (n j : Nat) :
    (byteOf v n).getLsbD j = (decide (j < 8) && v.getLsbD (8 * n + j)) := by
  rw [byteOf, BitVec.getLsbD_extractLsb']

theorem wordOf_getLsbD (w : WordWidth) (v : Block) (m j : Nat) :
    (wordOf w v m).getLsbD j = (decide (j < w.bits) && v.getLsbD (w.bits * m + j)) := by
  rw [wordOf, BitVec.getLsbD_extractLsb']

/-- Lane `l` of `{f 15, …, f 0}` is `f l`. -/
@[simp] theorem byteOf_lanesOf (f : Nat → Byte) {l : Nat} (h : l < 16) : byteOf (lanesOf f) l = f l := by
  apply BitVec.eq_of_getLsbD_eq
  intro j hj
  have h1 : 8 * l + j < 128 := by omega
  have h2 : (8 * l + j) / 8 = l := by omega
  have h3 : (8 * l + j) % 8 = j := by omega
  rw [byteOf_getLsbD, lanesOf_getLsbD, h2, h3]
  simp only [hj, h1, decide_true, Bool.true_and]

/-- A block is its sixteen lanes. -/
theorem block_ext_lanes {u v : Block} (h : ∀ l < 16, byteOf u l = byteOf v l) : u = v := by
  apply BitVec.eq_of_getLsbD_eq
  intro p hp
  have hl := congrArg (fun x : Byte => x.getLsbD (p % 8)) (h (p / 8) (by omega))
  have h1 : p % 8 < 8 := Nat.mod_lt _ (by decide)
  have h2 : 8 * (p / 8) + p % 8 = p := Nat.div_add_mod p 8
  simpa only [byteOf_getLsbD, h1, h2, decide_true, Bool.true_and] using hl

/-- Blocks put together from the same lanes are equal. -/
theorem lanesOf_congr {f g : Nat → Byte} (h : ∀ l < 16, f l = g l) : lanesOf f = lanesOf g :=
  block_ext_lanes fun l hl => by rw [byteOf_lanesOf f hl, byteOf_lanesOf g hl, h l hl]

end Sys2Proof.Machine
end

