-- ==== Sys2Proof/Laws/State.lean ====
section
/-! SUPPORT. One lemma per field per update of State, true by unfolding, so that no later proof unfolds
a record update. -/

namespace Sys2Proof.Machine

variable (s : State)

@[simp] theorem writeBlock_cfg (a : Nat) (v : Block) : (s.writeBlock a v).cfg = s.cfg := rfl
@[simp] theorem writeBlock_sres (a : Nat) (v : Block) : (s.writeBlock a v).sres = s.sres := rfl
@[simp] theorem writeBlock_fault (a : Nat) (v : Block) : (s.writeBlock a v).fault = s.fault := rfl
@[simp] theorem writeBlock_cause (a : Nat) (v : Block) : (s.writeBlock a v).cause = s.cause := rfl
@[simp] theorem writeBlock_fcmd (a : Nat) (v : Block) : (s.writeBlock a v).fcmd = s.fcmd := rfl
@[simp] theorem writeBlock_moves (a : Nat) (v : Block) : (s.writeBlock a v).moves = s.moves := rfl
@[simp] theorem writeBlock_replies (a : Nat) (v : Block) : (s.writeBlock a v).replies = s.replies := rfl
@[simp] theorem writeBlock_epoch (a : Nat) (v : Block) : (s.writeBlock a v).epoch = s.epoch := rfl
@[simp] theorem writeBlock_mem (a : Nat) (v : Block) : (s.writeBlock a v).mem = s.mem.write a v := rfl

@[simp] theorem setSres_cfg (v : Byte) : (s.setSres v).cfg = s.cfg := rfl
@[simp] theorem setSres_sres (v : Byte) : (s.setSres v).sres = v := rfl
@[simp] theorem setSres_fault (v : Byte) : (s.setSres v).fault = s.fault := rfl
@[simp] theorem setSres_cause (v : Byte) : (s.setSres v).cause = s.cause := rfl
@[simp] theorem setSres_fcmd (v : Byte) : (s.setSres v).fcmd = s.fcmd := rfl
@[simp] theorem setSres_moves (v : Byte) : (s.setSres v).moves = s.moves := rfl
@[simp] theorem setSres_replies (v : Byte) : (s.setSres v).replies = s.replies := rfl
@[simp] theorem setSres_epoch (v : Byte) : (s.setSres v).epoch = s.epoch := rfl
@[simp] theorem setSres_mem (v : Byte) : (s.setSres v).mem = s.mem := rfl
@[simp] theorem setSres_readBlock (v : Byte) (a : Nat) : (s.setSres v).readBlock a = s.readBlock a := rfl

@[simp] theorem raiseFault_cfg (c : Cause) (w : Command) : (s.raiseFault c w).cfg = s.cfg := rfl
@[simp] theorem raiseFault_sres (c : Cause) (w : Command) : (s.raiseFault c w).sres = s.sres := rfl
@[simp] theorem raiseFault_fault (c : Cause) (w : Command) : (s.raiseFault c w).fault = true := rfl
@[simp] theorem raiseFault_cause (c : Cause) (w : Command) : (s.raiseFault c w).cause = c.code := rfl
@[simp] theorem raiseFault_fcmd (c : Cause) (w : Command) : (s.raiseFault c w).fcmd = w := rfl
@[simp] theorem raiseFault_moves (c : Cause) (w : Command) : (s.raiseFault c w).moves = s.moves := rfl
@[simp] theorem raiseFault_replies (c : Cause) (w : Command) :
    (s.raiseFault c w).replies = s.replies := rfl
@[simp] theorem raiseFault_epoch (c : Cause) (w : Command) : (s.raiseFault c w).epoch = s.epoch := rfl
@[simp] theorem raiseFault_mem (c : Cause) (w : Command) : (s.raiseFault c w).mem = s.mem := rfl
@[simp] theorem raiseFault_readBlock (c : Cause) (w : Command) (a : Nat) :
    (s.raiseFault c w).readBlock a = s.readBlock a := rfl

@[simp] theorem reply_cfg (r : HostReply) : (s.reply r).cfg = s.cfg := rfl
@[simp] theorem reply_sres (r : HostReply) : (s.reply r).sres = s.sres := rfl
@[simp] theorem reply_fault (r : HostReply) : (s.reply r).fault = s.fault := rfl
@[simp] theorem reply_cause (r : HostReply) : (s.reply r).cause = s.cause := rfl
@[simp] theorem reply_fcmd (r : HostReply) : (s.reply r).fcmd = s.fcmd := rfl
@[simp] theorem reply_moves (r : HostReply) : (s.reply r).moves = s.moves := rfl
@[simp] theorem reply_replies (r : HostReply) : (s.reply r).replies = r :: s.replies := rfl
@[simp] theorem reply_epoch (r : HostReply) : (s.reply r).epoch = s.epoch := rfl
@[simp] theorem reply_mem (r : HostReply) : (s.reply r).mem = s.mem := rfl
@[simp] theorem reply_readBlock (r : HostReply) (a : Nat) : (s.reply r).readBlock a = s.readBlock a := rfl

@[simp] theorem doReset_cfg : s.doReset.cfg = s.cfg := rfl
@[simp] theorem doReset_sres : s.doReset.sres = 0 := rfl
@[simp] theorem doReset_fault : s.doReset.fault = false := rfl
@[simp] theorem doReset_cause : s.doReset.cause = 0 := rfl
@[simp] theorem doReset_fcmd : s.doReset.fcmd = 0 := rfl
@[simp] theorem doReset_moves : s.doReset.moves = s.moves := rfl
@[simp] theorem doReset_replies : s.doReset.replies = s.replies := rfl
@[simp] theorem doReset_epoch : s.doReset.epoch = s.epoch + 1 := rfl
@[simp] theorem doReset_mem : s.doReset.mem = [] := rfl
@[simp] theorem doReset_readBlock (a : Nat) :
    s.doReset.readBlock a = Config.powerOnBlock (s.epoch + 1) a := rfl

/-- Taking a move from the host's list leaves every block as it reads. -/
@[simp] theorem withMoves_readBlock (m : List HostMove) (a : Nat) :
    State.readBlock { s with moves := m } a = s.readBlock a := rfl

@[simp] theorem withFetchWord_moves (nbits w : Nat) :
    (s.withFetchWord nbits w).moves = .issue (tableWord nbits w) :: s.moves := rfl
@[simp] theorem withFetchWord_cfg (nbits w : Nat) : (s.withFetchWord nbits w).cfg = s.cfg := rfl
@[simp] theorem withFetchWord_readBlock (nbits w a : Nat) :
    (s.withFetchWord nbits w).readBlock a = s.readBlock a := rfl

end Sys2Proof.Machine
end

