-- ==== Sys2Proof/Laws/Memory.lean ====
section
/-! SUPPORT. Memory: reading after writing, the canonical form, and what writing a view does. -/

namespace Sys2Proof.Machine

theorem find?_write (m : Memory) (a : Nat) (v : Block) (b : Nat) :
    (m.write a v).find? b = if a = b then some v else m.find? b := by
  induction m with
  | nil => rfl
  | cons p m ih =>
    obtain ⟨c, x⟩ := p
    simp only [Memory.write]
    split
    · simp [Memory.find?]
    · split
      · next h =>
        subst h
        by_cases hb : a = b <;> simp [Memory.find?, hb]
      · by_cases hc : c = b
        · subst hc
          have : ¬ a = c := by omega
          simp [Memory.find?, this]
        · simp [Memory.find?, hc, ih]

/-- The listed blocks after a write are the written one and those listed before. -/
theorem mem_write {m : Memory} {a : Nat} {v : Block} {p : Nat × Block} (h : p ∈ m.write a v) :
    p = (a, v) ∨ p ∈ m := by
  induction m with
  | nil => simpa [Memory.write] using h
  | cons q m ih =>
    obtain ⟨c, x⟩ := q
    simp only [Memory.write] at h
    split at h
    · simpa using h
    · split at h
      · rcases List.mem_cons.mp h with h | h
        · exact .inl h
        · exact .inr (List.mem_cons_of_mem _ h)
      · rcases List.mem_cons.mp h with h | h
        · exact .inr (by simp [h])
        · exact (ih h).imp_right (List.mem_cons_of_mem _)

/-- A write keeps the canonical form. -/
theorem write_wf {m : Memory} (h : m.wf) (a : Nat) (v : Block) : (m.write a v).wf := by
  induction m with
  | nil => simp [Memory.write]
  | cons p m ih =>
    obtain ⟨c, x⟩ := p
    obtain ⟨hc, hm⟩ := List.pairwise_cons.mp h
    simp only [Memory.write]
    split
    · next hlt =>
      refine List.pairwise_cons.mpr ⟨fun q hq => ?_, h⟩
      rcases List.mem_cons.mp hq with rfl | hq
      · exact hlt
      · exact Nat.lt_trans hlt (hc q hq)
    · split
      · next heq =>
        subst heq
        exact List.pairwise_cons.mpr ⟨hc, hm⟩
      · refine List.pairwise_cons.mpr ⟨fun q hq => ?_, ih hm⟩
        rcases mem_write hq with rfl | hq
        · show c < a
          omega
        · exact hc q hq

/-- Reset memory is canonical. -/
theorem reset_mem_wf : State.reset.mem.wf := List.Pairwise.nil

/-- Reading after writing one block (R13, 20_memory.md R50). -/
theorem readBlock_writeBlock (s : State) (a : Nat) (v : Block) (b : Nat) :
    (s.writeBlock a v).readBlock b = if a = b then v else s.readBlock b := by
  simp only [State.readBlock, writeBlock_mem, writeBlock_epoch, find?_write]
  split <;> simp

/-- Writing a view changes `mem` alone. -/
theorem writeView_eq (s : State) (f st : Nat) (v : Nat → Block) (n : Nat) :
    s.writeView f st v n = { s with mem := (s.writeView f st v n).mem } := by
  induction n with
  | zero => rfl
  | succ n ih => rw [State.writeView, ih]; rfl

section Fields

variable (s : State) (f st : Nat) (v : Nat → Block) (n : Nat)

@[simp] theorem writeView_cfg : (s.writeView f st v n).cfg = s.cfg := by rw [writeView_eq]
@[simp] theorem writeView_sres : (s.writeView f st v n).sres = s.sres := by rw [writeView_eq]
@[simp] theorem writeView_fault : (s.writeView f st v n).fault = s.fault := by rw [writeView_eq]
@[simp] theorem writeView_cause : (s.writeView f st v n).cause = s.cause := by rw [writeView_eq]
@[simp] theorem writeView_fcmd : (s.writeView f st v n).fcmd = s.fcmd := by rw [writeView_eq]
@[simp] theorem writeView_moves : (s.writeView f st v n).moves = s.moves := by rw [writeView_eq]
@[simp] theorem writeView_replies : (s.writeView f st v n).replies = s.replies := by rw [writeView_eq]
@[simp] theorem writeView_epoch : (s.writeView f st v n).epoch = s.epoch := by rw [writeView_eq]

end Fields

/-- A block that is no block of the view keeps its content. -/
theorem readBlock_writeView_of_ne (s : State) (f st : Nat) (v : Nat → Block) (n a : Nat)
    (h : ∀ k < n, a ≠ viewAddr f st k) : (s.writeView f st v n).readBlock a = s.readBlock a := by
  induction n with
  | zero => rfl
  | succ n ih =>
    rw [State.writeView, readBlock_writeBlock, if_neg (Ne.symm (h n (Nat.lt_succ_self n))),
      ih fun k hk => h k (Nat.lt_succ_of_lt hk)]

/-- Block `k` of a view with a nonzero stride holds `v k` after the write. -/
theorem readBlock_writeView (s : State) (f : Nat) {st : Nat} (hst : st ≠ 0) (v : Nat → Block)
    {n k : Nat} (hk : k < n) : (s.writeView f st v n).readBlock (viewAddr f st k) = v k := by
  induction n with
  | zero => omega
  | succ n ih =>
    rw [State.writeView, readBlock_writeBlock]
    by_cases h : k = n
    · subst h; rw [if_pos rfl]
    · have hne : viewAddr f st n ≠ viewAddr f st k := by
        intro he
        have : n * st = k * st := by simpa [viewAddr] using he
        exact h (Nat.eq_of_mul_eq_mul_right (Nat.pos_of_ne_zero hst) this).symm
      rw [if_neg hne, ih (by omega)]

/-- Writing a view keeps the canonical form. -/
theorem writeView_wf {s : State} (h : s.mem.wf) (f st : Nat) (v : Nat → Block) (n : Nat) :
    (s.writeView f st v n).mem.wf := by
  induction n with
  | zero => exact h
  | succ n ih => exact write_wf ih _ _

/-- The listed blocks after writing a view are those listed before and blocks of the view. -/
theorem mem_writeView {s : State} {f st : Nat} {v : Nat → Block} {n : Nat} {p : Nat × Block}
    (h : p ∈ (s.writeView f st v n).mem) : p ∈ s.mem ∨ ∃ k < n, p.1 = viewAddr f st k := by
  induction n with
  | zero => exact .inl h
  | succ n ih =>
    rcases mem_write h with rfl | h
    · exact .inr ⟨n, Nat.lt_succ_self n, rfl⟩
    · rcases ih h with h | ⟨k, hk, e⟩
      · exact .inl h
      · exact .inr ⟨k, Nat.lt_succ_of_lt hk, e⟩

/-- Reading a block depends on the memory and the epoch alone. -/
theorem readBlock_congr {s t : State} (hm : s.mem = t.mem) (he : s.epoch = t.epoch) (a : Nat) :
    s.readBlock a = t.readBlock a := by rw [State.readBlock, State.readBlock, hm, he]

end Sys2Proof.Machine
end

