-- ==== Sys2Proof/Laws/Exec.lean ====
section
/-! SUPPORT. What a command can do, said once: it is ignored, it faults by its checks, or it has its
effect, which changes `mem` or `sres` alone. -/

namespace Sys2Proof.Machine

/-- The effect of each command, as its meaning uses it. -/
def instrEffect : Instr → State → State
  | .trn base stride => trnEffect base stride
  | .trnd dst src stride => trndEffect dst src stride
  | .trnr base stride => trnrEffect base stride
  | .bsl dst src => bslEffect dst src
  | .ubsl dst src => ubslEffect dst src
  | .gfmul lhs rhs => gfmulEffect lhs rhs
  | .gfmulc rhs => gfmulcEffect rhs
  | .llkup dst src table => llkupEffect dst src table
  | .pmul dst a b => pmulEffect dst a b
  | .pmulc dst src => pmulcEffect dst src
  | .bmul64 dst a b => bmul64Effect dst a b

/-- Every meaning is its checks and its effect put through R64. -/
theorem exec_eq (i : Instr) (s : State) :
    exec i s = command (encode i) (instrCause s.cfg i) (instrEffect i) s := by
  cases i <;> rfl

theorem command_halted {s : State} (h : s.fault = true) (cw : Command) (c : Option Cause)
    (e : State → State) : command cw c e s = .next s := by simp [command, h]

theorem command_faults {s : State} (h : s.fault = false) (cw : Command) (c : Cause)
    (e : State → State) : command cw (some c) e s = .next (s.raiseFault c cw) := by simp [command, h]

theorem command_completes {s : State} (h : s.fault = false) (cw : Command) (e : State → State) :
    command cw none e s = .next (e s) := by simp [command, h]

/-- The three things a command can do (R64). -/
theorem command_cases {cw : Command} {c : Option Cause} {e : State → State} {s t : State}
    (h : command cw c e s = .next t) :
    (s.fault = true ∧ t = s) ∨
    (s.fault = false ∧ ∃ x, c = some x ∧ t = s.raiseFault x cw) ∨
    (s.fault = false ∧ c = none ∧ t = e s) := by
  cases hf : s.fault with
  | true =>
    rw [command_halted hf] at h
    exact .inl ⟨rfl, (Host.Outcome.next.inj h).symm⟩
  | false =>
    cases c with
    | some x =>
      rw [command_faults hf] at h
      exact .inr (.inl ⟨rfl, x, rfl, (Host.Outcome.next.inj h).symm⟩)
    | none =>
      rw [command_completes hf] at h
      exact .inr (.inr ⟨rfl, rfl, (Host.Outcome.next.inj h).symm⟩)

/-- The same of `exec`: ignored, faulted, or completed. -/
theorem exec_cases {i : Instr} {s t : State} (h : exec i s = .next t) :
    (s.fault = true ∧ t = s) ∨
    (s.fault = false ∧ ∃ c, instrCause s.cfg i = some c ∧ t = s.raiseFault c (encode i)) ∨
    (s.fault = false ∧ instrCause s.cfg i = none ∧ t = instrEffect i s) :=
  command_cases (exec_eq i s ▸ h)

/-- A command whose checks pass completes with its effect. -/
theorem exec_completes {i : Instr} {s : State} (hf : s.fault = false) (hc : instrCause s.cfg i = none) :
    exec i s = .next (instrEffect i s) := by rw [exec_eq, hc, command_completes hf]

/-- A command whose checks fail faults with their cause. -/
theorem exec_faults {i : Instr} {s : State} {c : Cause} (hf : s.fault = false)
    (hc : instrCause s.cfg i = some c) : exec i s = .next (s.raiseFault c (encode i)) := by
  rw [exec_eq, hc, command_faults hf]

/-- No effect touches a register other than `SRES`, the configuration or the model's own fields. -/
theorem instrEffect_eq (i : Instr) (s : State) :
    instrEffect i s = { s with mem := (instrEffect i s).mem, sres := (instrEffect i s).sres } := by
  have view (f st : Nat) (v : Nat → Block) (n : Nat) : s.writeView f st v n =
      { s with mem := (s.writeView f st v n).mem, sres := (s.writeView f st v n).sres } := by
    rw [writeView_sres, ← writeView_eq]
  cases i with
  | trn base stride => exact view _ _ _ _
  | trnd dst src stride => exact view _ _ _ _
  | trnr base stride => exact view _ _ _ _
  | bsl dst src => exact view _ _ _ _
  | ubsl dst src => exact view _ _ _ _
  | gfmul lhs rhs => rfl
  | gfmulc rhs => rfl
  | llkup dst src table => rfl
  | pmul dst a b => rfl
  | pmulc dst src => rfl
  | bmul64 dst a b => exact view _ _ _ _

/-- Every memory effect keeps the canonical form. -/
theorem instrEffect_wf (i : Instr) {s : State} (h : s.mem.wf) : (instrEffect i s).mem.wf := by
  cases i with
  | trn base stride => exact writeView_wf h _ _ _ _
  | trnd dst src stride => exact writeView_wf h _ _ _ _
  | trnr base stride => exact writeView_wf h _ _ _ _
  | bsl dst src => exact writeView_wf h _ _ _ _
  | ubsl dst src => exact writeView_wf h _ _ _ _
  | gfmul lhs rhs => exact h
  | gfmulc rhs => exact h
  | llkup dst src table => exact write_wf h _ _
  | pmul dst a b => exact write_wf h _ _
  | pmulc dst src => exact write_wf h _ _
  | bmul64 dst a b => exact writeView_wf h _ _ _ _

/-- The first cause of a list of checks is one of the list whose condition holds. -/
theorem firstCause_some {l : List (Bool × Cause)} {c : Cause} (h : firstCause l = some c) :
    (true, c) ∈ l := by
  induction l with
  | nil => cases h
  | cons p l ih =>
    obtain ⟨b, d⟩ := p
    cases b with
    | true => simp only [firstCause, Option.some.injEq] at h; simp [h]
    | false => exact List.mem_cons_of_mem _ (ih h)

/-- All checks pass exactly when no condition holds. -/
theorem firstCause_none {l : List (Bool × Cause)} : firstCause l = none ↔ ∀ p ∈ l, p.1 = false := by
  induction l with
  | nil => simp [firstCause]
  | cons p l ih =>
    obtain ⟨b, d⟩ := p
    cases b <;> simp [firstCause, ih]

end Sys2Proof.Machine
end

