-- ==== Sys2Proof/Laws/Checks.lean ====
section
/-! SUPPORT. The operand checks in arithmetic: when a direct region or a span lies in `MEM`, when a
destination meets a source, and when the checks of each command all pass. -/

namespace Sys2Proof.Machine

variable (c : Config) (w : WordWidth)

@[simp] theorem inRange_direct (f : Field) (n m : Nat) :
    (direct f n).inRange m = decide (f.toNat + n ≤ m) := rfl

@[simp] theorem inRange_span (a st m : Nat) :
    (span w a st).inRange m = decide (a + ((w.bits - 1) * st + 1) ≤ m) := rfl

@[simp] theorem overlaps_direct_direct (f g : Field) (n m : Nat) :
    (direct f n).overlaps (direct g m) =
      decide (max f.toNat g.toNat < min (f.toNat + n) (g.toNat + m)) := rfl

@[simp] theorem overlaps_direct_span (f : Field) (n a st : Nat) :
    (direct f n).overlaps (span w a st) =
      decide (max f.toNat a < min (f.toNat + n) (a + ((w.bits - 1) * st + 1))) := rfl

theorem trnCause_eq_none (base stride : Field) : trnCause c base stride = none ↔
    stride.toNat ≠ 0 ∧ base.toNat + ((c.width.bits - 1) * stride.toNat + 1) ≤ c.memBlocks := by
  simp only [trnCause, firstCause_none, inRange_span, List.forall_mem_cons, Bool.not_eq_false',
    decide_eq_false_iff_not, decide_eq_true_eq, List.not_mem_nil, false_implies, implies_true,
    and_true]

theorem trnrCause_eq_none (base stride : Field) : trnrCause c base stride = none ↔
    stride.toNat ≠ 0 ∧ base.toNat + ((c.width.bits - 1) * stride.toNat + 1) ≤ c.memBlocks :=
  trnCause_eq_none c base stride

theorem trndCause_eq_none (dst src stride : Field) : trndCause c dst src stride = none ↔
    stride.toNat ≠ 0 ∧
    (src.toNat + ((c.width.bits - 1) * stride.toNat + 1) ≤ c.memBlocks ∧
      dst.toNat + c.width.bits ≤ c.memBlocks) ∧
    ¬ max dst.toNat src.toNat <
      min (dst.toNat + c.width.bits) (src.toNat + ((c.width.bits - 1) * stride.toNat + 1)) := by
  simp only [trndCause, firstCause_none, inRange_span, inRange_direct, overlaps_direct_span,
    List.forall_mem_cons, Bool.not_eq_false', Bool.and_eq_true, decide_eq_false_iff_not,
    decide_eq_true_eq, List.not_mem_nil, false_implies, implies_true, and_true]

theorem copyCause_eq_none (dst src : Field) (n : Nat) : copyCause c dst src n = none ↔
    (src.toNat + n ≤ c.memBlocks ∧ dst.toNat + n ≤ c.memBlocks) ∧
    ¬ max dst.toNat src.toNat < min (dst.toNat + n) (src.toNat + n) := by
  simp only [copyCause, firstCause_none, inRange_direct, overlaps_direct_direct,
    List.forall_mem_cons, Bool.not_eq_false', Bool.and_eq_true, decide_eq_false_iff_not,
    decide_eq_true_eq, List.not_mem_nil, false_implies, implies_true, and_true]

theorem laneCopyCause_eq_none (dst src : Field) : laneCopyCause c dst src = none ↔
    (src.toNat < c.memBlocks ∧ dst.toNat < c.memBlocks) ∧ dst.toNat ≠ src.toNat := by
  simp only [laneCopyCause, firstCause_none, inRange_direct, List.forall_mem_cons,
    Bool.not_eq_false', Bool.and_eq_true, decide_eq_false_iff_not, decide_eq_true_eq,
    List.not_mem_nil, false_implies, implies_true, and_true, Nat.succ_le_iff, ne_eq]

theorem pmulCause_eq_none (dst a b : Field) : pmulCause c dst a b = none ↔
    ((a.toNat < c.memBlocks ∧ b.toNat < c.memBlocks) ∧ dst.toNat < c.memBlocks) ∧
    dst.toNat ≠ a.toNat ∧ dst.toNat ≠ b.toNat := by
  simp only [pmulCause, firstCause_none, inRange_direct, List.forall_mem_cons,
    Bool.not_eq_false', Bool.and_eq_true, Bool.or_eq_false_iff, decide_eq_false_iff_not,
    decide_eq_true_eq, List.not_mem_nil, false_implies, implies_true, and_true, Nat.succ_le_iff, ne_eq]

theorem bmul64Cause_eq_none (dst a b : Field) : bmul64Cause c dst a b = none ↔
    ((a.toNat + 64 ≤ c.memBlocks ∧ b.toNat + 64 ≤ c.memBlocks) ∧ dst.toNat + 64 ≤ c.memBlocks) ∧
    ¬ max dst.toNat a.toNat < min (dst.toNat + 64) (a.toNat + 64) ∧
    ¬ max dst.toNat b.toNat < min (dst.toNat + 64) (b.toNat + 64) := by
  simp only [bmul64Cause, firstCause_none, inRange_direct, overlaps_direct_direct,
    List.forall_mem_cons, Bool.not_eq_false', Bool.and_eq_true, Bool.or_eq_false_iff,
    decide_eq_false_iff_not, decide_eq_true_eq, List.not_mem_nil, false_implies, implies_true,
    and_true]

end Sys2Proof.Machine
end

