-- ==== Sys2Proof/Laws/Tower.lean ====
section
/-! SUPPORT. The tower product of a configuration (44_batched_multiply.md R151): what it reads, and the value
of a supplied formula, one lemma per constructor. -/

namespace Sys2Proof.Machine

variable (x y : Block)

@[simp] theorem evalFormula_lhs : evalFormula x y .lhs = x := rfl
@[simp] theorem evalFormula_rhs : evalFormula x y .rhs = y := rfl
@[simp] theorem evalFormula_const (v : Block) : evalFormula x y (.const v) = v := rfl
@[simp] theorem evalFormula_xor (f g : TowerFormula) :
    evalFormula x y (.xor f g) = evalFormula x y f ^^^ evalFormula x y g := rfl
@[simp] theorem evalFormula_select (n : Nat) (c f g : TowerFormula) :
    evalFormula x y (.select n c f g) =
      if (evalFormula x y c).getLsbD n then evalFormula x y f else evalFormula x y g := rfl

theorem towerMul128_formula {c : Config} {f : TowerFormula} (h : c.tower = .formula f) :
    towerMul128 c x y = evalFormula x y f := by simp only [towerMul128, h]

theorem towerMul128_unknown {c : Config} {n : Nat} (h : c.tower = .unknown n) :
    towerMul128 c x y = Config.unknownTower n x y := by simp only [towerMul128, h]

/-- The operand checks of `BMUL64` do not depend on the product (R155). -/
@[simp] theorem bmul64Cause_tower (c : Config) (T : TowerMul) (dst a b : Field) :
    bmul64Cause { c with tower := T } dst a b = bmul64Cause c dst a b := rfl

end Sys2Proof.Machine
end

