-- ==== Sys2Proof/Laws/Config.lean ====
section
/-! SUPPORT. The same state in a block of another configuration: one lemma per field, and when a command does
there what it does here. -/

namespace Sys2Proof.Machine

variable (s : State) (c : Config)

@[simp] theorem withConfig_cfg : (s.withConfig c).cfg = c := rfl
@[simp] theorem withConfig_mem : (s.withConfig c).mem = s.mem := rfl
@[simp] theorem withConfig_sres : (s.withConfig c).sres = s.sres := rfl
@[simp] theorem withConfig_fault : (s.withConfig c).fault = s.fault := rfl
@[simp] theorem withConfig_cause : (s.withConfig c).cause = s.cause := rfl
@[simp] theorem withConfig_fcmd : (s.withConfig c).fcmd = s.fcmd := rfl
@[simp] theorem withConfig_moves : (s.withConfig c).moves = s.moves := rfl
@[simp] theorem withConfig_replies : (s.withConfig c).replies = s.replies := rfl
@[simp] theorem withConfig_epoch : (s.withConfig c).epoch = s.epoch := rfl
@[simp] theorem withConfig_readBlock (a : Nat) : (s.withConfig c).readBlock a = s.readBlock a := rfl
@[simp] theorem withConfig_view (f st : Nat) : (s.withConfig c).view f st = s.view f st := rfl
@[simp] theorem withConfig_setSres (v : Byte) :
    (s.withConfig c).setSres v = (s.setSres v).withConfig c := rfl
@[simp] theorem withConfig_writeBlock (a : Nat) (v : Block) :
    (s.withConfig c).writeBlock a v = (s.writeBlock a v).withConfig c := rfl
@[simp] theorem withConfig_raiseFault (x : Cause) (w : Command) :
    (s.withConfig c).raiseFault x w = (s.raiseFault x w).withConfig c := rfl

@[simp] theorem withConfig_writeView (f st : Nat) (v : Nat → Block) (n : Nat) :
    (s.withConfig c).writeView f st v n = (s.writeView f st v n).withConfig c := by
  induction n with
  | zero => rfl
  | succ n ih => rw [State.writeView, ih]; rfl

/-- A command with the same checks and the same effect in another configuration does the same there. -/
theorem exec_withConfig {i : Instr} {s t : State} {c : Config}
    (hc : instrCause c i = instrCause s.cfg i)
    (he : instrEffect i (s.withConfig c) = (instrEffect i s).withConfig c)
    (h : exec i s = .next t) : exec i (s.withConfig c) = .next (t.withConfig c) := by
  rw [exec_eq, withConfig_cfg, hc]
  rcases exec_cases h with ⟨hf, rfl⟩ | ⟨hf, x, hx, rfl⟩ | ⟨hf, hx, rfl⟩
  · exact command_halted (s := t.withConfig c) hf _ _ _
  · rw [hx, command_faults (s := s.withConfig c) hf, withConfig_raiseFault]
  · rw [hx, command_completes (s := s.withConfig c) hf, he]

end Sys2Proof.Machine
end

