-- ==== Sys2Proof/Laws/PerInstr.lean ====
section
/-! SUPPORT. A fact of every instruction as syntax, one lemma per constructor: its word has the field
values that its row of 30_encoding.md R62 fixes, and its reserved field `Z` is zero. -/

namespace Sys2Proof.Laws.FixedFields

/-- The opcode of the row of R62, by mnemonic. -/
def opcodeOf (m : String) : Option Byte :=
  (opcodeTable.find? fun r => r.mnemonic == m).map fun r => r.pattern.extractLsb' 0 8

/-- The fields of the instruction's word hold the opcode of its row, and `Z = 0`. -/
def Statement (i : Instr) : Prop :=
  opcodeOf i.mnemonic = some (encodeFields i).op ∧ (encodeFields i).z = 0

theorem trn (base stride : Field) : Statement (.trn base stride) :=
  ⟨show opcodeOf "TRN" = some 0x01 by decide, rfl⟩
theorem trnd (dst src stride : Field) : Statement (.trnd dst src stride) :=
  ⟨show opcodeOf "TRND" = some 0x02 by decide, rfl⟩
theorem trnr (base stride : Field) : Statement (.trnr base stride) :=
  ⟨show opcodeOf "TRNR" = some 0x03 by decide, rfl⟩
theorem bsl (dst src : Field) : Statement (.bsl dst src) :=
  ⟨show opcodeOf "BSL" = some 0x08 by decide, rfl⟩
theorem ubsl (dst src : Field) : Statement (.ubsl dst src) :=
  ⟨show opcodeOf "UBSL" = some 0x09 by decide, rfl⟩
theorem gfmul (lhs rhs : Byte) : Statement (.gfmul lhs rhs) :=
  ⟨show opcodeOf "GFMUL" = some 0x10 by decide, rfl⟩
theorem gfmulc (rhs : Byte) : Statement (.gfmulc rhs) :=
  ⟨show opcodeOf "GFMULC" = some 0x11 by decide, rfl⟩
theorem llkup (dst src : Field) (table : TableSel) : Statement (.llkup dst src table) :=
  ⟨show opcodeOf "LLKUP" = some 0x18 by decide, rfl⟩
theorem pmul (dst a b : Field) : Statement (.pmul dst a b) :=
  ⟨show opcodeOf "PMUL" = some 0x19 by decide, rfl⟩
theorem pmulc (dst src : Field) : Statement (.pmulc dst src) :=
  ⟨show opcodeOf "PMULC" = some 0x1A by decide, rfl⟩
theorem bmul64 (dst a b : Field) : Statement (.bmul64 dst a b) :=
  ⟨show opcodeOf "BMUL64" = some 0x20 by decide, rfl⟩

end Sys2Proof.Laws.FixedFields
end

