-- ==== Sys2Proof/Laws/Step.lean ====
section
/-! SUPPORT. What a step can do, said once per move of the host. -/

namespace Sys2Proof.Machine

theorem step_idle {s : State} (h : s.moves = []) : step s = .next s := by
  simp only [step, h]; rfl

theorem step_cons {s : State} {m : HostMove} {rest : List HostMove} (h : s.moves = m :: rest) :
    step s = makeMove m { s with moves := rest } := by
  simp only [step, h]

/-- A run of `n + 1` steps is a step and a run of `n` (Host/Core.lean). -/
theorem core_run_succ (n : Nat) {s u : State} (h : step s = .next u) :
    Sys2Proof.core.run (n + 1) s = Sys2Proof.core.run n u := by
  have h' : Sys2Proof.core.step s = .next u := h
  refine (Host.Core.run.eq_2 Sys2Proof.core s n).trans ?_
  rw [h']

/-- A run that goes on has made its first step. -/
theorem step_of_core_run {n : Nat} {s t : State} (h : Sys2Proof.core.run (n + 1) s = .next t) :
    ∃ u, step s = .next u ∧ Sys2Proof.core.run n u = .next t := by
  replace h := (Host.Core.run.eq_2 Sys2Proof.core s n).symm.trans h
  split at h
  · next u hs => exact ⟨u, hs, h⟩
  · cases h
  · cases h

theorem issue_ok {cw : Command} {i : Instr} (h : decode cw = .ok i) (s : State) :
    issue cw s = exec i s := by simp only [issue, h]

theorem issue_error {cw : Command} {e : Illegal} (h : decode cw = .error e) (s : State) :
    issue cw s = command cw (some .illegalCommand) id s := by simp only [issue, h]; rfl

/-- The things `ISSUE(cw)` can do: ignored; illegal; a command that faults or completes. -/
theorem issue_cases {cw : Command} {s t : State} (h : issue cw s = .next t) :
    (s.fault = true ∧ t = s) ∨
    (s.fault = false ∧ (∃ e, decode cw = .error e) ∧ t = s.raiseFault .illegalCommand cw) ∨
    ∃ i, decode cw = .ok i ∧ s.fault = false ∧
      ((∃ c, instrCause s.cfg i = some c ∧ t = s.raiseFault c (encode i)) ∨
        (instrCause s.cfg i = none ∧ t = instrEffect i s)) := by
  cases hd : decode cw with
  | error e =>
    rw [issue_error hd] at h
    rcases command_cases h with h | ⟨hf, c, hc, ht⟩ | ⟨_, hc, _⟩
    · exact .inl h
    · cases hc
      exact .inr (.inl ⟨hf, ⟨e, rfl⟩, ht⟩)
    · cases hc
  | ok i =>
    rw [issue_ok hd] at h
    rcases exec_cases h with h | ⟨hf, h⟩ | ⟨hf, h⟩
    · exact .inl h
    · exact .inr (.inr ⟨i, rfl, hf, .inl h⟩)
    · exact .inr (.inr ⟨i, rfl, hf, .inr h⟩)

/-- The things a move can do that answer a next state. -/
theorem makeMove_cases {m : HostMove} {s t : State} (h : makeMove m s = .next t) :
    (∃ cw, m = .issue cw ∧ issue cw s = .next t) ∨
    (∃ a v, m = .hwr a v ∧ a < s.cfg.memBlocks ∧ t = s.writeBlock a v) ∨
    (∃ r, m ≠ .reset ∧ t = s.reply r) ∨
    (m = .reset ∧ t = s.doReset) := by
  cases m with
  | issue cw => exact .inl ⟨cw, rfl, h⟩
  | hwr a v =>
    simp only [makeMove, hostWrite] at h
    split at h
    · next ha => exact .inr (.inl ⟨a, v, rfl, ha, (Host.Outcome.next.inj h).symm⟩)
    · cases h
  | hrd a =>
    simp only [makeMove, hostRead] at h
    split at h
    · exact .inr (.inr (.inl ⟨_, by simp, (Host.Outcome.next.inj h).symm⟩))
    · cases h
  | hstatus => exact .inr (.inr (.inl ⟨_, by simp, (Host.Outcome.next.inj h).symm⟩))
  | hfcmd => exact .inr (.inr (.inl ⟨_, by simp, (Host.Outcome.next.inj h).symm⟩))
  | hsres => exact .inr (.inr (.inl ⟨_, by simp, (Host.Outcome.next.inj h).symm⟩))
  | reset => exact .inr (.inr (.inr ⟨rfl, (Host.Outcome.next.inj h).symm⟩))

end Sys2Proof.Machine
end

