-- ==== Sys2Proof/Laws/Transpose.lean ====
section
/-! SUPPORT. What the two transpose functions hold, bit by bit (40_bit_transpose.md R83, R84), and that
they read the blocks of their group alone. -/

namespace Sys2Proof.Machine

/-- Bit `k` of word `p` of the dense group is bit `p` of row `k` (R83). -/
theorem transposeForward_bit (w : WordWidth) (R : Nat → Block) {p k : Nat} (hk : k < w.bits) :
    (wordOf w (transposeForward w R (p / w.wordsPerBlock)) (p % w.wordsPerBlock)).getLsbD k =
      (R k).getLsbD p := by
  have hb := bits_pos w
  have hm := Nat.mod_lt p (wordsPerBlock_pos w)
  have h128 := bits_mul_wordsPerBlock w
  have hlt : w.bits * (p % w.wordsPerBlock) + k < 128 := by nlinarith
  have hmod : (w.bits * (p % w.wordsPerBlock) + k) % w.bits = k := by
    rw [Nat.mul_add_mod, Nat.mod_eq_of_lt hk]
  have hdiv : (w.bits * (p % w.wordsPerBlock) + k) / w.bits = p % w.wordsPerBlock := by
    rw [Nat.mul_add_div hb, Nat.div_eq_of_lt hk, Nat.add_zero]
  rw [wordOf_getLsbD, transposeForward, bitsOf_getLsbD, hmod, hdiv,
    Nat.mul_comm (p / w.wordsPerBlock), Nat.div_add_mod]
  simp only [hk, hlt, decide_true, Bool.true_and]

/-- Bit `p` of row `k` is bit `k` of word `p` of the dense group (R84). -/
theorem transposeInverse_bit (w : WordWidth) (D : Nat → Block) {p k : Nat} (hp : p < 128)
    (hk : k < w.bits) : (transposeInverse w D k).getLsbD p =
      (wordOf w (D (p / w.wordsPerBlock)) (p % w.wordsPerBlock)).getLsbD k := by
  rw [wordOf_getLsbD, transposeInverse, bitsOf_getLsbD, Nat.mul_comm]
  simp only [hk, hp, decide_true, Bool.true_and]

/-- Word `p` lies in block `p div WPB` of the dense group. -/
theorem block_of_word_lt (w : WordWidth) {p : Nat} (hp : p < 128) :
    p / w.wordsPerBlock < w.bits := by
  rw [Nat.div_lt_iff_lt_mul (wordsPerBlock_pos w), bits_mul_wordsPerBlock w]
  exact hp

/-- `TRF` reads the `W` rows alone. -/
theorem transposeForward_congr (w : WordWidth) {R R' : Nat → Block} (h : ∀ k < w.bits, R k = R' k)
    (t : Nat) : transposeForward w R t = transposeForward w R' t := by
  apply BitVec.eq_of_getLsbD_eq
  intro q _
  rw [transposeForward, transposeForward, bitsOf_getLsbD, bitsOf_getLsbD,
    h _ (Nat.mod_lt _ (bits_pos w))]

/-- `TRI` reads the `W` blocks of the dense group alone. -/
theorem transposeInverse_congr (w : WordWidth) {D D' : Nat → Block} (h : ∀ t < w.bits, D t = D' t)
    {k : Nat} (hk : k < w.bits) : transposeInverse w D k = transposeInverse w D' k := by
  apply BitVec.eq_of_getLsbD_eq
  intro p hp
  rw [transposeInverse_bit w _ hp hk, transposeInverse_bit w _ hp hk, h _ (block_of_word_lt w hp)]

end Sys2Proof.Machine
end

