-- ==== Sys2Proof/Tests/Slice0.lean ====
section
/-! SUPPORT. The smoke tests of the configuration checks, the decoding of words written out from
30_encoding.md, one step of each command against 95_test_vectors.md, and for each statement with
hypotheses a state and operands that meet them. Expected values are the spec's. -/

namespace Sys2Proof.Tests

open Sys2Proof Sys2Proof.Machine

/-! ### Helpers -/

/-- The next state of an outcome. -/
def after : Host.Outcome State Fault Refusal → Option State
  | .next s => some s
  | .fault _ => none
  | .refused _ => none

/-- A running block of width `w` whose written blocks are `m`, with the reference tables. -/
def block (w : WordWidth) (m : Memory) : State :=
  { State.reset with cfg := { Config.reference with width := w }, mem := m }

/-- A halted block: the state V-FLT2 reaches by `TRN 0, 0`. -/
def haltedBlock : State := { State.reset with fault := true, cause := 2, fcmd := 0x0000000000000001 }

/-- Entry `x` of a table replaced. -/
def patch (t : Table) (x : Nat) (v : Byte) : Table :=
  if h : x < 256 then t.set (x / 16) ((t[x / 16]'(by omega)).set (x % 16) v (by omega)) (by omega)
  else t

/-- `STATUS` after the word is issued to a block fresh from reset (`W = 64`, 1024 blocks). -/
def statusAfter (w : Nat) : Option Nat :=
  (after (step (State.reset.withFetchWord 64 w))).map fun t => t.status.toNat

/-- `SRES` after the word is issued to a block fresh from reset, on `REF`. -/
def sresAfter (w : Nat) : Option Nat :=
  (after (step (State.reset.withFetchWord 64 w))).map fun t => t.sres.toNat

/-- Blocks `as` after the word is issued to the state. -/
def blocksAfter (s : State) (w : Nat) (as : List Nat) : Option (List Nat) :=
  (after (step (s.withFetchWord 64 w))).map fun t => as.map fun a => (t.readBlock a).toNat

/-! ### The configuration checks refuse ill-formed terms (R7, R111 to R116) -/

theorem reference_wellFormed : Config.reference.WellFormed := by decide +kernel

theorem test_refuses_no_block :
    Config.check { Config.reference with memBlocks := 0 } = false := by decide

theorem test_refuses_too_many_blocks :
    Config.check { Config.reference with memBlocks := 65537 } = false := by decide

theorem test_accepts_the_ends_of_the_range :
    Config.memBlocksOk { Config.reference with memBlocks := 1 } = true ∧
      Config.memBlocksOk { Config.reference with memBlocks := 65536 } = true := by decide

/-- R111: two exponents with one antilogarithm. -/
theorem test_refuses_repeated_antilogarithm :
    (Config.expBijective { Config.reference with expTable := patch refExpTable 1 0x43 } = false) ∧
      Config.check { Config.reference with expTable := patch refExpTable 1 0x43 } = false := by
  decide +kernel

/-- R111: an antilogarithm that is zero. -/
theorem test_refuses_zero_antilogarithm :
    Config.expBijective { Config.reference with expTable := patch refExpTable 254 0x00 } = false := by
  decide +kernel

/-- R112: a logarithm of 255, though `EXP_TABLE[255] = 1` is the byte's antilogarithm. -/
theorem test_refuses_logarithm_255 :
    Config.logInverse { Config.reference with logTable := patch refLogTable 0x01 0xFF } = false := by
  decide +kernel

/-- R112: a logarithm that is not undone. -/
theorem test_refuses_wrong_logarithm :
    (Config.logInverse { Config.reference with logTable := patch refLogTable 0xFF 0x00 } = false) ∧
      Config.check { Config.reference with logTable := patch refLogTable 0xFF 0x00 } = false := by
  decide +kernel

/-- R113: the literals `LOG_TABLE[1] = 0` and `EXP_TABLE[0] = 1`. -/
theorem test_refuses_other_literals :
    Config.pinnedLiterals { Config.reference with logTable := patch refLogTable 1 0x05 } = false ∧
      Config.pinnedLiterals { Config.reference with expTable := patch refExpTable 0 0x13 } = false := by
  decide +kernel

/-- R115: `EXP_TABLE[255]` other than `EXP_TABLE[0]`; nothing else is wrong with this configuration. -/
theorem test_refuses_no_wrap :
    Config.expBijective { Config.reference with expTable := patch refExpTable 255 0x00 } = true ∧
      Config.expWraps { Config.reference with expTable := patch refExpTable 255 0x00 } = false ∧
      Config.check { Config.reference with expTable := patch refExpTable 255 0x00 } = false := by
  decide +kernel

/-- R116: an entry of `ALPHA_MAP` that is not the product by `ALPHA`. -/
theorem test_refuses_wrong_alpha_map :
    Config.alphaMapOk { Config.reference with alphaMap := patch refAlphaMap 255 0x00 } = false ∧
      Config.check { Config.reference with alphaMap := patch refAlphaMap 255 0x00 } = false := by
  decide +kernel

/-- R114: any value of `LOG_TABLE[0]` is well-formed. -/
theorem test_accepts_any_sentinel :
    Config.check { Config.reference with logTable := patch refLogTable 0 0xFF } = true := by
  decide +kernel

/-! ### Decoding: words written out field by field (R60, R62): `C`, `B`, `A`, `Z`, `OP` -/

theorem test_decode_trn :
    decode (0b0000000000000010#16 ++ 0b0000000000000000#16 ++ 0b0000000000010000#16 ++
      0b00000000#8 ++ 0b00000001#8) = .ok (.trn 0x0010 2) := by decide

theorem test_decode_trnd :
    decode (0b0000000000000001#16 ++ 0b0000000000000000#16 ++ 0b0000000100000000#16 ++
      0b00000000#8 ++ 0b00000010#8) = .ok (.trnd 0x0100 0x0000 1) := by decide

theorem test_decode_trnr :
    decode (0b0000000000000010#16 ++ 0b0000000000000000#16 ++ 0b0000000000010000#16 ++
      0b00000000#8 ++ 0b00000011#8) = .ok (.trnr 0x0010 2) := by decide

theorem test_decode_bsl :
    decode (0b0000000000000000#16 ++ 0b0000000000000000#16 ++ 0b0000000000100000#16 ++
      0b00000000#8 ++ 0b00001000#8) = .ok (.bsl 0x0020 0x0000) := by decide

theorem test_decode_ubsl :
    decode (0b0000000000000000#16 ++ 0b0000000000100000#16 ++ 0b0000000000000000#16 ++
      0b00000000#8 ++ 0b00001001#8) = .ok (.ubsl 0x0000 0x0020) := by decide

theorem test_decode_gfmul :
    decode (0b0000000010000011#16 ++ 0b0000000001010011#16 ++ 0b0000000000000000#16 ++
      0b00000000#8 ++ 0b00010000#8) = .ok (.gfmul 0x53 0x83) := by decide

theorem test_decode_gfmulc :
    decode (0b0000000000000000#16 ++ 0b0000000000000010#16 ++ 0b0000000000000000#16 ++
      0b00000000#8 ++ 0b00010001#8) = .ok (.gfmulc 0x02) := by decide

theorem test_decode_llkup :
    decode (0b0000000000000001#16 ++ 0b0000000000000001#16 ++ 0b0000000000000010#16 ++
      0b00000000#8 ++ 0b00011000#8) = .ok (.llkup 0x0002 0x0001 .exp) := by decide

theorem test_decode_pmul :
    decode (0b0000000000000010#16 ++ 0b0000000000000001#16 ++ 0b0000000000000011#16 ++
      0b00000000#8 ++ 0b00011001#8) = .ok (.pmul 0x0003 0x0001 0x0002) := by decide

theorem test_decode_pmulc :
    decode (0b0000000000000000#16 ++ 0b0000000000000001#16 ++ 0b0000000000000011#16 ++
      0b00000000#8 ++ 0b00011010#8) = .ok (.pmulc 0x0003 0x0001) := by decide

theorem test_decode_bmul64 :
    decode (0b0000000001000000#16 ++ 0b0000000000000000#16 ++ 0b0000000010000000#16 ++
      0b00000000#8 ++ 0b00100000#8) = .ok (.bmul64 0x0080 0x0000 0x0040) := by decide

/-- V-ENC and V-FLT: the illegal words, each with the case of R63 it falls under. -/
theorem test_decode_illegal :
    decode 0x0000000000000000 = .error .unknownOp ∧ decode 0x0000000000000004 = .error .unknownOp ∧
    decode 0x00000000000000FF = .error .unknownOp ∧ decode 0x0001000000000101 = .error .zNotZero ∧
    decode 0x0001000500000001 = .error .unusedFieldNotZero ∧
    decode 0x0001000000200008 = .error .unusedFieldNotZero ∧
    decode 0x0003000200010010 = .error .unusedFieldNotZero ∧
    decode 0x0003010000000010 = .error .byteTooWide ∧
    decode 0x0003000100020018 = .error .badTableSelect ∧
    decode 0x0004000100020018 = .error .badTableSelect := by decide

/-- The opcode table's numbering: bits at and above `nbits` are zero. -/
theorem test_table_word :
    decodeTableWord 64 0x0002000000100001 = some (.trn 0x0010 2) ∧
      decodeTableWord 8 0x0002000000100001 = some (.trn 0 0) := by decide

/-- R66. -/
theorem test_assembly :
    Instr.assembly (.llkup 2 1 .exp) = "LLKUP 2, 1, EXP" ∧
      Instr.assembly (.trn 16 2) = "TRN 16, 2" := by decide +kernel

/-! ### One step of each command -/

/-- V-TR2, `W = 8`: bit 1 of row 0 goes to word 1, bit 0. -/
theorem test_trn_word_one :
    blocksAfter (block .w8 [(0, 2), (1, 0), (2, 0), (3, 0), (4, 0), (5, 0), (6, 0), (7, 0)])
      0x0001000000000001 [0, 1, 7] = some [0x100, 0, 0] := by decide +kernel

/-- V-TR3, `W = 8`: bit 70 of row 3 goes to block 4, word 6, bit 3. The number that the vector prints for the
row has bit 38 instead; its words and its results are those of R83 (log 21). -/
theorem test_trn_row_three :
    blocksAfter (block .w8 [(0, 0), (1, 0), (2, 0), (3, 0x00000000000000400000000000000000), (4, 0),
        (5, 0), (6, 0), (7, 0)])
      0x0001000000000001 [3, 4] = some [0, 0x00000000000000000008000000000000] := by decide +kernel

/-- V-TR9, `W = 8`: a row of the "after" column gives back its row of the "before" column. -/
theorem test_trnr_full_group :
    blocksAfter (block .w8
        [(0, 0x00F0CCAA000000FF00F0CCAA00000000), (1, 0x00F0CCAA0000FFFF00F0CCAA0000FF00),
         (2, 0x00F0CCAA00FF00FF00F0CCAA00FF0000), (3, 0x00F0CCAA00FFFFFF00F0CCAA00FFFF00),
         (4, 0x00F0CCAAFF0000FF00F0CCAAFF000000), (5, 0x00F0CCAAFF00FFFF00F0CCAAFF00FF00),
         (6, 0x00F0CCAAFFFF00FF00F0CCAAFFFF0000), (7, 0x00F0CCAAFFFFFFFF00F0CCAAFFFFFF00)])
      0x0001000000000003 [0, 5] =
    some [0x0F0E0D0C0B0A09080706050403020100, 0x5F5E5D5C5B5A59585756555453525150] := by decide +kernel

/-- V-TR8 with `W = 8`: the transposed bit is ORed into the old content of the destination. -/
theorem test_trnd_accumulates :
    blocksAfter (block .w8
        [(0, 1), (1, 0), (2, 0), (3, 0), (4, 0), (5, 0), (6, 0), (7, 0), (8, 4), (9, 0), (10, 0),
         (11, 0), (12, 0), (13, 0), (14, 0), (15, 0)])
      0x0001000000080002 [0, 8, 9] = some [1, 5, 0] := by decide +kernel

/-- The batch of V-BS3: element 3, byte 5 is 0xAB. -/
def oneByteBatch : Memory :=
  [(0, 0), (1, 0), (2, 0), (3, 0x00000000000000000000AB0000000000), (4, 0), (5, 0), (6, 0), (7, 0)] ++
  [(8, 0), (9, 0), (10, 0), (11, 0), (12, 0), (13, 0), (14, 0), (15, 0)]

/-- V-BS3: row 5, lane 3. -/
theorem test_bsl_row_five_lane_three :
    blocksAfter (block .w64 oneByteBatch) 0x0000000000200008 [0x23, 0x25] =
      some [0, 0x000000000000000000000000AB000000] := by decide +kernel

/-- `UBSL` of the same batch: byte 3 of element 5. -/
theorem test_ubsl_element_five_byte_three :
    blocksAfter (block .w64 oneByteBatch) 0x0000000000200009 [0x23, 0x25] =
      some [0, 0x000000000000000000000000AB000000] := by decide +kernel

/-- V-GF1: zero operands, `t = 255`, `t = 508`, no subtraction. -/
theorem test_gfmul_rows :
    [0x0057000000000010, 0x0000005700000010, 0x0003000200000010, 0x0010001000000010,
      0x007B007B00000010, 0x0083005300000010, 0x002E001300000010].map sresAfter =
    [some 0x00, some 0x00, some 0x01, some 0x41, some 0x2E, some 0xA4, some 0x7B] := by decide +kernel

/-- V-GF3. -/
theorem test_gfmulc_rows :
    [0x0000000000000011, 0x0000000100000011, 0x0000008000000011, 0x000000FF00000011].map sresAfter =
    [some 0x00, some 0x10, some 0xE8, some 0x4F] := by decide +kernel

/-- V-LN1, the indices on the quadrant boundaries, for `LOG` and `EXP`. -/
theorem test_llkup_quadrant_boundaries :
    blocksAfter (block .w64 [(1, 0xFEBE7E3EC1814101FFC0BF807F403F00)]) 0x0000000100020018 [2, 1] =
      some [0xE94CEF6570ACA500E0F4B64AC89F5200, 0xFEBE7E3EC1814101FFC0BF807F403F00] ∧
    blocksAfter (block .w64 [(1, 0xFEBE7E3EC1814101FFC0BF807F403F00)]) 0x0001000100020018 [2] =
      some [0x7B7792FB706FE113016BC99BF8ADA901] := by decide +kernel

/-- V-LN1: the same indices by the document's construction from quadrants. -/
theorem test_lane_lookup_by_quadrants :
    laneLookup refExpTable 0xFEBE7E3EC1814101FFC0BF807F403F00 =
      0x7B7792FB706FE113016BC99BF8ADA901 := by decide +kernel

/-- V-LN4: zero lanes, sums of 255, wrapped sums. -/
theorem test_pmul_lanes :
    blocksAfter (block .w64 [(1, 0xFECC030210AB800B2E53FF1357015700),
        (2, 0xFE2D020310CD800D2E83FF1301570057)]) 0x0002000100030019 [3] =
      some [0x71F601014157570ACEA4704357570000] := by decide +kernel

/-- V-LN4 by the document's construction (R135). -/
theorem test_packed_multiply_lanes :
    packedMultiply Config.reference 0xFECC030210AB800B2E53FF1357015700
      0xFE2D020310CD800D2E83FF1301570057 = 0x71F601014157570ACEA4704357570000 := by decide +kernel

/-- V-LN7. -/
theorem test_pmulc_lanes :
    blocksAfter (block .w64 [(1, 0xFE7FF00FC0402055AA00014180FF1310)]) 0x000000010003001A [3] =
      some [0x5FA7BFF07C948285CA001084E84F7141] := by decide +kernel

/-- V-BM1: element 1 of the destination is the open product of the elements 1, in this order. -/
theorem test_bmul64_element_one (s t : State)
    (hs : s = block .w64 [(1, 0x01), (65, 0xFF)]) (h : exec (.bmul64 0x80 0 0x40) s = .next t) :
    t.readBlock 0x81 = towerMul128 s.cfg 0x01 0xFF := by
  subst hs
  rw [exec_completes rfl (by decide +kernel)] at h
  cases h
  exact readBlock_writeView _ 0x80 (st := 1) (by decide) _ (n := 64) (k := 1) (by decide)

/-- V-BM1 with XOR supplied, and a formula that is not symmetric. -/
theorem test_bmul64_supplied_function :
    blocksAfter { block .w64 [(1, 0x01), (65, 0xFF)] with
        cfg := { Config.reference with tower := .formula (.xor .lhs .rhs) } }
      0x0040000000800020 [0x81, 1] = some [0xFE, 1] ∧
    blocksAfter { block .w64 [(1, 0x01), (65, 0xFE)] with
        cfg := { Config.reference with tower := .formula (.select 0 .rhs (.const 7) .lhs) } }
      0x0040000000800020 [0x81] = some [1] := by decide +kernel

/-! ### Faults: the rows of V-FLT, `STATUS` after one command -/

theorem test_flt_illegal :
    [0x0000000000000000, 0x0000000000000004, 0x00000000000000FF, 0x0001000000000101,
      0x0001000500000001, 0x0000000500000001, 0x0003000100020018].map statusAfter =
    [some 0x11, some 0x11, some 0x11, some 0x11, some 0x11, some 0x11, some 0x11] := by decide +kernel

theorem test_flt_trn :
    [0x0000000000000001, 0x0001000003C00001, 0x0001000003C10001, 0x0010000000000001,
      0x00100000000F0001, 0x0010000000100001, 0x0011000000000001, 0xFFFF0000FFFF0001,
      0x0001000003C10003].map statusAfter =
    [some 0x21, some 0, some 0x31, some 0, some 0, some 0x31, some 0x31, some 0x31,
      some 0x31] := by decide +kernel

theorem test_flt_trnd :
    [0x0001000000400002, 0x00010000003F0002, 0x0001000000000002, 0x0002000000010002,
      0x00020000007F0002, 0x00020000007E0002, 0x000007D000000002, 0x0001000003E80002].map statusAfter =
    [some 0, some 0x41, some 0x41, some 0x41, some 0, some 0x41, some 0x21, some 0x31] := by
  decide +kernel

theorem test_flt_byte_slice :
    [0x00000000000F0008, 0x0000000000100008, 0x0000000000000008, 0x0000000003F00008,
      0x0000000003F10008, 0x000003F703FC0008, 0x0000000800000009].map statusAfter =
    [some 0x41, some 0, some 0x41, some 0, some 0x31, some 0x31, some 0x41] := by decide +kernel

theorem test_flt_lanes :
    [0x0000000100010018, 0x0000040000010018, 0x0002000100010019, 0x0002000100020019,
      0x0001000100030019, 0x0400000100030019, 0x000000070007001A].map statusAfter =
    [some 0x41, some 0x31, some 0x41, some 0x41, some 0, some 0x31, some 0x41] := by decide +kernel

theorem test_flt_batch :
    [0x0040000000800020, 0x00C80000003F0020, 0x00A3000000640020, 0x0000000003C10020,
      0x0000000003C00020].map statusAfter =
    [some 0, some 0x41, some 0x41, some 0x31, some 0] := by decide +kernel

/-- V-FLT2: a halted block ignores a legal and an illegal word, and `RESET` clears it. -/
theorem test_halted_ignores_and_resets :
    step (haltedBlock.withFetchWord 64 0x0003000200000010) = .next haltedBlock ∧
      step (haltedBlock.withFetchWord 64 0x00000000000000FF) = .next haltedBlock ∧
      (after (step { haltedBlock with moves := [.reset] })).map (fun t => t.status) = some 0 :=
  ⟨rfl, rfl, rfl⟩

/-- R35: what the reading moves return in the halted block of V-FLT2. -/
theorem test_host_reads :
    (after (Sys2Proof.core.run 4
      { haltedBlock with sres := 0x43, moves := [.hwr 9 7, .hrd 9, .hstatus, .hfcmd] })).map
        (fun t => t.replies) = some [.fcmd 1, .status 0x21, .block 7] := by decide +kernel

/-- R35: outside `MEM` the host has no move. -/
theorem test_host_moves_outside_mem :
    step { State.reset with moves := [.hwr 1024 7] } = .fault (.hostWriteOutsideMem 1024) ∧
      step { State.reset with moves := [.hrd 1024] } = .fault (.hostReadOutsideMem 1024) := ⟨rfl, rfl⟩

/-! ### Witnesses: for each statement with hypotheses, and each of its clauses, a state and operands that
meet them. `State.reset` has `W = 64` and 1024 blocks. -/

/-- A block fresh from reset whose next moves are `ms`. -/
def withMoves (ms : List HostMove) : State := { State.reset with moves := ms }

theorem witness_EncodeOfDecodeIsTheWord :
    ∃ w i, decode w = .ok i := ⟨0x0013001300000010, .gfmul 0x13 0x13, rfl⟩

theorem witness_DecoderAgreesWithTheOpcodeTable :
    ∃ (w : Command) (r q : OpcodeRow), r ∈ opcodeTable ∧ q ∈ opcodeTable ∧
      r.matchesWord w = true ∧ q.matchesWord w = true :=
  ⟨0x0002000100020018, { mnemonic := "LLKUP", pattern := 0x18, mask := 0xFFFC00000000FFFF },
    { mnemonic := "LLKUP", pattern := 0x18, mask := 0xFFFC00000000FFFF }, by decide, by decide,
    by decide, by decide⟩

theorem witness_IllegalWordsAreExactlyThoseOfTheFiveCases :
    ∃ (w : Command) (s : State), (∃ e, decode w = .error e) ∧ s.fault = false :=
  ⟨0x0003000100020018, State.reset, ⟨.badTableSelect, rfl⟩, rfl⟩

theorem witness_StepRunsTheDecodedCommand_legal :
    ∃ (s : State) (cw : Command) (rest : List HostMove) (i : Instr),
      s.moves = .issue cw :: rest ∧ decode cw = .ok i :=
  ⟨withMoves [.issue 0x0000000200000011, .hsres], _, _, .gfmulc 2, rfl, rfl⟩

theorem witness_StepRunsTheDecodedCommand_illegal :
    ∃ (s : State) (cw : Command) (rest : List HostMove) (e : Illegal),
      s.moves = .issue cw :: rest ∧ decode cw = .error e :=
  ⟨withMoves [.issue 0, .hstatus], _, _, .unknownOp, rfl, rfl⟩

theorem witness_StepRunsTheDecodedCommand_idle : State.reset.moves = [] := rfl

theorem witness_StepKeepsTheConfigurationAndTakesOneMove :
    ∃ s t : State, s.moves = [.hwr 1023 5, .hrd 1023] ∧ step s = .next t :=
  ⟨withMoves [.hwr 1023 5, .hrd 1023], _, rfl, rfl⟩

theorem witness_ResetMoveRestoresTheResetValues :
    ∃ (s : State) (rest : List HostMove), s.fault = true ∧ s.moves = HostMove.reset :: rest :=
  ⟨{ haltedBlock with moves := [.reset, .hstatus] }, _, rfl, rfl⟩

/-- The last block of `MEM` and the first address past it. -/
theorem witness_HostMovesHaveTheirEffects :
    1023 < State.reset.cfg.memBlocks ∧ State.reset.cfg.memBlocks ≤ 1024 := by decide

theorem witness_HostReadReturnsTheLatestWrite :
    ∃ (ms : List HostMove) (s t : State) (a : Nat) (v : Block),
      a < s.cfg.memBlocks ∧ s.moves = .hwr a v :: (ms ++ [.hrd a]) ∧
      (∀ m ∈ ms, m ≠ .reset ∧ (∀ v', m ≠ .hwr a v') ∧
        ∀ cw i, m = .issue cw → decode cw = .ok i → ¬ writesBlock s.cfg.width a i) ∧
      Sys2Proof.core.run (ms.length + 2) s = .next t := by
  refine ⟨[.hwr 3 6, .issue 0x0003000200000010, .hsres],
    withMoves [.hwr 0 5, .hwr 3 6, .issue 0x0003000200000010, .hsres, .hrd 0], _, 0, 5, by decide, rfl,
    ?_, rfl⟩
  intro m hm
  rcases List.mem_cons.mp hm with rfl | hm
  · exact ⟨by simp, by simp, by simp⟩
  rcases List.mem_cons.mp hm with rfl | hm
  · refine ⟨by simp, by simp, fun cw i h hd => ?_⟩
    cases h
    cases (show decode 0x0003000200000010 = .ok (.gfmul 2 3) from rfl).symm.trans hd
    exact id
  · rw [List.mem_singleton.mp hm]
    exact ⟨by simp, by simp, by simp⟩

theorem reset_inv : State.reset.Inv :=
  ⟨fun _ => ⟨rfl, rfl⟩, fun h => absurd h (by decide), List.Pairwise.nil, fun _ h => by cases h⟩

/-- A step that faults, from a state of the invariant. -/
theorem witness_EveryStepKeepsTheInvariant :
    ∃ s t, State.Inv s ∧ step s = .next t ∧ t.fault = true :=
  ⟨withMoves [.issue 0x0001000003C10001], _,
    ⟨fun _ => ⟨rfl, rfl⟩, fun h => absurd h (by decide), List.Pairwise.nil, fun _ h => by cases h⟩, rfl, rfl⟩

theorem witness_CauseIsZeroOrOneOfFourCodes :
    (∃ s, State.Inv s ∧ s.fault = false) ∧ ∃ s, State.Inv s ∧ s.fault = true :=
  ⟨⟨State.reset, reset_inv, rfl⟩, haltedBlock,
    ⟨fun h => absurd h (by decide), fun _ => ⟨.badStride, rfl, rfl⟩, List.Pairwise.nil,
      fun _ h => by cases h⟩, rfl⟩

/-- Each of the four causes is raised by a word of V-FLT. -/
theorem witness_FaultEntryRecordsCauseAndWordOnly :
    State.reset.fault = false ∧
    wordCause State.reset.cfg 0x0000000000000004 = some .illegalCommand ∧
    wordCause State.reset.cfg 0x0000000000000001 = some .badStride ∧
    wordCause State.reset.cfg 0x0001000003C10001 = some .addrRange ∧
    wordCause State.reset.cfg 0x00010000003F0002 = some .overlap := by decide

theorem witness_HaltedBlockIgnoresEveryCommand :
    ∃ s t m, State.fault s = true ∧ makeMove m s = .next t ∧ t.fault = false :=
  ⟨haltedBlock, _, .reset, rfl, rfl, rfl⟩

theorem witness_HaltedBlockIgnoresEveryCommand_moves :
    haltedBlock.fault = true ∧
    (∀ a v, HostMove.hwr 1023 7 = .hwr a v → a < haltedBlock.cfg.memBlocks) ∧
    ∀ a, HostMove.hwr 1023 7 = .hrd a → a < haltedBlock.cfg.memBlocks :=
  ⟨rfl, fun a v h => by cases h; decide, fun a h => by cases h⟩

theorem witness_HaltIsStickyAlongEveryRun :
    ∃ (n : Nat) (s t : State), s.GoneWrong ∧ .reset ∉ s.moves ∧ Sys2Proof.core.run n s = .next t :=
  ⟨2, { haltedBlock with moves := [.issue 0x0003000200000010, .hwr 0 9, .hstatus] }, _, rfl, by decide,
    rfl⟩

theorem witness_FaultIsDecidedByWordAndConfigurationAlone :
    ∃ (s₁ s₂ t₁ t₂ : State) (cw : Command), s₁.cfg = s₂.cfg ∧ s₁.fault = false ∧ s₂.fault = false ∧
      issue cw s₁ = .next t₁ ∧ issue cw s₂ = .next t₂ ∧ t₁.fault = true :=
  ⟨State.reset, { State.reset with sres := 0x43, mem := [(0, 1)] }, _, _, 0x00010000003F0002, rfl, rfl,
    rfl, rfl, rfl, rfl⟩

/-- The clauses of the transpose faults: stride 0; a span that ends one block past `MEM`; for `TRND` a
source span, then a destination, that ends one block past; a destination whose last block is the first
of the source, and one that meets the span in its last block. -/
theorem witness_TransposeCommandsFaultInPriorityOrder :
    (0 : Field) = 0 ∧ (1 : Field) ≠ 0 ∧ 1024 < (961 : Field).toNat + (64 - 1) * (1 : Field).toNat + 1 ∧
    1024 < (16 : Field).toNat + (64 - 1) * (16 : Field).toNat + 1 ∧
    1024 < (961 : Field).toNat + 64 ∧
    (∃ (s : State) (dst src stride : Field), s.fault = false ∧ stride ≠ 0 ∧
      src.toNat + (s.cfg.width.bits - 1) * stride.toNat + 1 ≤ s.cfg.memBlocks ∧
      dst.toNat + s.cfg.width.bits ≤ s.cfg.memBlocks ∧
      ∃ a, (dst.toNat ≤ a ∧ a < dst.toNat + s.cfg.width.bits) ∧
        src.toNat ≤ a ∧ a < src.toNat + (s.cfg.width.bits - 1) * stride.toNat + 1) ∧
    ∃ (s : State) (dst src stride : Field), s.fault = false ∧ stride ≠ 0 ∧
      src.toNat + (s.cfg.width.bits - 1) * stride.toNat + 1 ≤ s.cfg.memBlocks ∧
      dst.toNat + s.cfg.width.bits ≤ s.cfg.memBlocks ∧
      ∃ a, (dst.toNat ≤ a ∧ a < dst.toNat + s.cfg.width.bits) ∧
        src.toNat ≤ a ∧ a < src.toNat + (s.cfg.width.bits - 1) * stride.toNat + 1 :=
  ⟨rfl, by decide, by decide, by decide, by decide,
    ⟨State.reset, 0, 63, 1, rfl, by decide, by decide, by decide, 63, by decide, by decide⟩,
    State.reset, 126, 0, 2, rfl, by decide, by decide, by decide, 126, by decide, by decide⟩

/-- The clauses of the batch faults: source or destination one block past `MEM`; the last block of one
region the first of the other. -/
theorem witness_BatchCommandsFaultInPriorityOrder :
    1024 < (1009 : Field).toNat + 16 ∧ 1024 < (961 : Field).toNat + 64 ∧
    (∃ (s : State) (dst src : Field), s.fault = false ∧ src.toNat + 16 ≤ s.cfg.memBlocks ∧
      dst.toNat + 16 ≤ s.cfg.memBlocks ∧
      ∃ a, (dst.toNat ≤ a ∧ a < dst.toNat + 16) ∧ src.toNat ≤ a ∧ a < src.toNat + 16) ∧
    ∃ (s : State) (dst a b : Field), s.fault = false ∧ a.toNat + 64 ≤ s.cfg.memBlocks ∧
      b.toNat + 64 ≤ s.cfg.memBlocks ∧ dst.toNat + 64 ≤ s.cfg.memBlocks ∧
      ∃ x, (dst.toNat ≤ x ∧ x < dst.toNat + 64) ∧
        (a.toNat ≤ x ∧ x < a.toNat + 64 ∨ b.toNat ≤ x ∧ x < b.toNat + 64) :=
  ⟨by decide, by decide,
    ⟨State.reset, 1008, 993, rfl, by decide, by decide, 1008, by decide, by decide⟩,
    State.reset, 100, 0, 163, rfl, by decide, by decide, by decide, 163, by decide, by decide⟩

/-- The clauses of the lane faults: the first address past `MEM`; one block twice. -/
theorem witness_LaneCommandsFaultInPriorityOrder :
    State.reset.fault = false ∧ State.reset.cfg.memBlocks ≤ (1024 : Field).toNat ∧
    (1023 : Field).toNat < State.reset.cfg.memBlocks ∧ (1023 : Field) = 1023 ∧
    (0 : Field).toNat < State.reset.cfg.memBlocks := by decide

/-- The last span that fits, for stride 1 and for stride 16. -/
theorem witness_TrnLeavesTheForwardTranspose :
    ∃ (s : State) (base stride : Field), s.fault = false ∧ stride ≠ 0 ∧
      base.toNat + (s.cfg.width.bits - 1) * stride.toNat + 1 ≤ s.cfg.memBlocks ∧
      (127 < 128 ∧ 63 < s.cfg.width.bits) ∧
      ¬ (base.toNat ≤ 959 ∧ 959 < base.toNat + s.cfg.width.bits) :=
  ⟨State.reset, 960, 1, rfl, by decide, by decide, by decide, by decide⟩

theorem witness_TrnrLeavesTheInverseTranspose :
    ∃ (s : State) (base stride : Field), s.fault = false ∧ stride ≠ 0 ∧
      base.toNat + (s.cfg.width.bits - 1) * stride.toNat + 1 ≤ s.cfg.memBlocks ∧
      (127 < 128 ∧ 63 < s.cfg.width.bits) ∧
      ∀ k < s.cfg.width.bits, 16 ≠ base.toNat + k * stride.toNat :=
  ⟨State.reset, 15, 16, rfl, by decide, by decide, by decide, by decide⟩

/-- V-FLT: the destination adjacent to the span, below the source and above it. -/
theorem witness_TrndOrsTheForwardTransposeIntoTheDestination :
    (∃ (s : State) (dst src stride : Field), s.fault = false ∧ stride ≠ 0 ∧
      src.toNat + (s.cfg.width.bits - 1) * stride.toNat + 1 ≤ s.cfg.memBlocks ∧
      dst.toNat + s.cfg.width.bits ≤ s.cfg.memBlocks ∧
      dst.toNat + s.cfg.width.bits ≤ src.toNat) ∧
    ∃ (s : State) (dst src stride : Field), s.fault = false ∧ stride ≠ 0 ∧
      src.toNat + (s.cfg.width.bits - 1) * stride.toNat + 1 ≤ s.cfg.memBlocks ∧
      dst.toNat + s.cfg.width.bits ≤ s.cfg.memBlocks ∧
      src.toNat + (s.cfg.width.bits - 1) * stride.toNat + 1 ≤ dst.toNat :=
  ⟨⟨State.reset, 0, 64, 1, rfl, by decide, by decide, by decide, by decide⟩,
    State.reset, 127, 0, 2, rfl, by decide, by decide, by decide, by decide⟩

/-- Adjacent regions, and a region that ends with `MEM`; the hypotheses of `BSL` and `UBSL`. -/
theorem witness_BslLeavesTheSlicedRows :
    ∃ (s : State) (dst src : Field), s.fault = false ∧ src.toNat + 16 ≤ s.cfg.memBlocks ∧
      dst.toNat + 16 ≤ s.cfg.memBlocks ∧ src.toNat + 16 ≤ dst.toNat ∧ dst.toNat + 16 = 1024 :=
  ⟨State.reset, 1008, 992, rfl, by decide, by decide, by decide, by decide⟩

theorem witness_UbslLeavesTheElements :
    ∃ (s : State) (dst src : Field), s.fault = false ∧ src.toNat + 16 ≤ s.cfg.memBlocks ∧
      dst.toNat + 16 ≤ s.cfg.memBlocks ∧ dst.toNat + 16 ≤ src.toNat :=
  ⟨State.reset, 0, 16, rfl, by decide, by decide, by decide⟩

/-- A running block, for every operand: `GFMUL`, `GFMULC` and the first clauses of R28. -/
theorem witness_GfmulLeavesTheProductInSres : State.reset.fault = false := rfl

theorem witness_GfmulcLeavesTheAlphaMapEntryInSres : State.reset.fault = false := rfl

/-- V-BM1 with XOR supplied. -/
theorem witness_Bmul64LeavesTheValuesOfAnySuppliedFunction :
    ∃ (T : TowerMul) (s : State) (dst a b : Field), T = .formula (.xor .lhs .rhs) ∧ s.cfg.tower = T ∧
      s.fault = false ∧ a.toNat + 64 ≤ s.cfg.memBlocks ∧ b.toNat + 64 ≤ s.cfg.memBlocks ∧
      dst.toNat + 64 ≤ s.cfg.memBlocks ∧
      (dst.toNat + 64 ≤ a.toNat ∨ a.toNat + 64 ≤ dst.toNat) ∧
      (dst.toNat + 64 ≤ b.toNat ∨ b.toNat + 64 ≤ dst.toNat) :=
  ⟨_, { State.reset with cfg := { Config.reference with tower := .formula (.xor .lhs .rhs) } }, 960, 0, 0,
    rfl, rfl, rfl, by decide, by decide, by decide, by decide, by decide⟩

theorem witness_TowerProductIsReadByBmul64Alone :
    (∃ c d : Config, c.tower = d.tower ∧ c ≠ d) ∧
    (∃ (s t : State) (i : Instr), (∀ dst a b, i ≠ .bmul64 dst a b) ∧ exec i s = .next t) ∧
    (∃ (s t u : State) (dst a b : Field) (T : TowerMul), exec (.bmul64 dst a b) s = .next t ∧
      exec (.bmul64 dst a b) (s.withConfig { s.cfg with tower := T }) = .next u ∧ T ≠ s.cfg.tower) ∧
    ∃ (s t u : State) (dst a b : Field) (T : TowerMul), exec (.bmul64 dst a b) s = .next t ∧
      exec (.bmul64 dst a b) (s.withConfig { s.cfg with tower := T }) = .next u ∧ t.fault = true :=
  ⟨⟨Config.reference, { Config.reference with memBlocks := 1 }, rfl, by decide⟩,
    ⟨State.reset, _, .gfmul 2 3, by simp, rfl⟩,
    ⟨State.reset, _, _, 960, 0, 0, .formula .lhs, exec_completes rfl (by decide),
      exec_completes rfl (by decide), by decide⟩,
    State.reset, _, _, 961, 0, 0, .formula .lhs, rfl, rfl, rfl⟩

theorem witness_SresIsWrittenByNoOtherCommand :
    (∃ (s t : State) (i : Instr), i.mnemonic ≠ "GFMUL" ∧ i.mnemonic ≠ "GFMULC" ∧ exec i s = .next t) ∧
    ∃ (s t : State) (cw : Command), issue cw s = .next t ∧ t.fault = true :=
  ⟨⟨{ State.reset with sres := 0x43 }, _, .bsl 16 0, by decide, by decide, rfl⟩,
    { State.reset with sres := 0x43 }, _, 0x0013011300000010, rfl, rfl⟩

/-- The last two blocks of `MEM`; the hypotheses of `LLKUP` and `PMULC`. -/
theorem witness_LlkupLeavesSixteenTableEntries :
    ∃ (s : State) (dst src : Field), s.fault = false ∧ src.toNat < s.cfg.memBlocks ∧
      dst.toNat < s.cfg.memBlocks ∧ dst ≠ src :=
  ⟨State.reset, 1023, 1022, rfl, by decide, by decide, by decide⟩

theorem witness_PmulcLeavesSixteenProductsByAlpha :
    ∃ (s : State) (dst src : Field), s.fault = false ∧ src.toNat < s.cfg.memBlocks ∧
      dst.toNat < s.cfg.memBlocks ∧ dst ≠ src ∧ s.cfg.WellFormed :=
  ⟨State.reset, 1022, 1023, rfl, by decide, by decide, by decide, reference_wellFormed⟩

/-- V-LN6: both operands the same block. -/
theorem witness_PmulLeavesSixteenProducts :
    ∃ (s : State) (dst a b : Field), s.fault = false ∧ a.toNat < s.cfg.memBlocks ∧
      b.toNat < s.cfg.memBlocks ∧ dst.toNat < s.cfg.memBlocks ∧ dst ≠ a ∧ dst ≠ b ∧ a = b ∧
      s.cfg.WellFormed :=
  ⟨State.reset, 1023, 0, 0, rfl, by decide, by decide, by decide, by decide, by decide, rfl,
    reference_wellFormed⟩

/-- V-FLT: `BMUL64 960, 0, 0`. -/
theorem witness_Bmul64LeavesSixtyFourTowerProducts :
    ∃ (s : State) (dst a b : Field), s.fault = false ∧ a.toNat + 64 ≤ s.cfg.memBlocks ∧
      b.toNat + 64 ≤ s.cfg.memBlocks ∧ dst.toNat + 64 ≤ s.cfg.memBlocks ∧
      (dst.toNat + 64 ≤ a.toNat ∨ a.toNat + 64 ≤ dst.toNat) ∧
      (dst.toNat + 64 ≤ b.toNat ∨ b.toNat + 64 ≤ dst.toNat) :=
  ⟨State.reset, 960, 0, 0, rfl, by decide, by decide, by decide, by decide, by decide⟩

theorem witness_CommandsReadAndWriteTheirRegionsOnly_frame :
    ∃ (i : Instr) (s t : State), exec i s = .next t ∧ t.fault = false ∧ s.fault = false ∧
      ¬ writesBlock s.cfg.width 16 i ∧ writesBlock s.cfg.width 15 i :=
  ⟨.bsl 0 16, State.reset, _, rfl, rfl, rfl, by simp [writesBlock], by simp [writesBlock]⟩

theorem witness_CommandsReadAndWriteTheirRegionsOnly_reads :
    ∃ (i : Instr) (s₁ s₂ t₁ t₂ : State), s₁.cfg = s₂.cfg ∧ s₁.sres = s₂.sres ∧ s₁.fault = false ∧
      s₂.fault = false ∧ (∀ a, readsBlock s₁.cfg.width a i → s₁.readBlock a = s₂.readBlock a) ∧
      exec i s₁ = .next t₁ ∧ exec i s₂ = .next t₂ ∧ t₁.fault = false ∧ s₁.mem ≠ s₂.mem :=
  ⟨.pmulc 3 1, { State.reset with mem := [(1, 7), (2, 8)] }, { State.reset with mem := [(1, 7), (2, 9)] },
    _, _, rfl, rfl, rfl, rfl, fun a h => by rw [show a = 1 from h]; rfl, rfl, rfl, rfl, by decide⟩

theorem witness_WordsAndBytesOfABlock :
    15 < WordWidth.w8.wordsPerBlock ∧ 7 < WordWidth.w8.bits ∧ 1 < WordWidth.w64.wordsPerBlock ∧
      63 < WordWidth.w64.bits := by decide

theorem witness_WordWriteReplacesThatWordOnly :
    (1 : Nat) ≠ 0 ∧ 0 ≠ 0 + 2 / State.reset.cfg.width.wordsPerBlock := by decide

theorem witness_MixedWidthViewsAgree : 15 < 16 ∧ 127 < 128 := by decide

theorem witness_ByteSliceIsItsOwnInverse : 15 < 16 := by decide

/-- Two rows of different groups, and the widths at the end of their ranges. -/
theorem witness_ForwardTransposeFormula :
    (1 < WordWidth.w64.wordsPerBlock ∧ 63 < WordWidth.w64.bits) ∧
    ∃ R R' : Nat → Block,
      (∀ t < WordWidth.bits .w8, transposeForward .w8 R t = transposeForward .w8 R' t) ∧ R 8 ≠ R' 8 :=
  ⟨by decide, fun _ => 0, fun k => if k < 8 then 0 else 1, fun t _ =>
    transposeForward_congr .w8 (fun k hk => (if_pos hk).symm) t, by decide⟩

theorem witness_InverseTransposeIsTheExactInverse (w : WordWidth) :
    ∃ G : (Nat → Block) → Nat → Block,
      (∀ D D' : Nat → Block, (∀ t < w.bits, D t = D' t) → ∀ k < w.bits, G D k = G D' k) ∧
      ∀ R : Nat → Block, ∀ k < w.bits, G (transposeForward w R) k = R k :=
  ⟨transposeInverse w, fun _ _ h _ hk => transposeInverse_congr w h hk, fun R k hk =>
    BitVec.eq_of_getLsbD_eq fun p hp => by
      rw [transposeInverse_bit w _ hp hk, transposeForward_bit w _ hk]⟩

/-- Both orders, with a stride that leaves gaps. -/
theorem witness_TransposeRoundTripRestoresTheView :
    (∃ (s s₁ s₂ s₃ : State) (base stride : Field),
      exec (.trn base stride) s = .next s₁ ∧ s₁.fault = false ∧ s₂.cfg = s₁.cfg ∧
      (∀ a, base.toNat ≤ a → a < base.toNat + (s.cfg.width.bits - 1) * stride.toNat + 1 →
        s₂.readBlock a = s₁.readBlock a) ∧
      exec (.trnr base stride) s₂ = .next s₃ ∧ s₃.fault = false ∧ stride = 2) ∧
    ∃ (s s₁ s₂ s₃ : State) (base stride : Field),
      exec (.trnr base stride) s = .next s₁ ∧ s₁.fault = false ∧ s₂.cfg = s₁.cfg ∧
      (∀ a, base.toNat ≤ a → a < base.toNat + (s.cfg.width.bits - 1) * stride.toNat + 1 →
        s₂.readBlock a = s₁.readBlock a) ∧
      exec (.trn base stride) s₂ = .next s₃ ∧ s₃.fault = false ∧ stride = 2 :=
  ⟨⟨State.reset, _, _, _, 16, 2, exec_completes rfl (by decide), by simp [instrEffect, trnEffect, State.reset],
      rfl, fun _ _ _ => rfl, exec_completes (by simp [instrEffect, trnEffect, State.reset])
        (by simp [instrEffect, trnEffect]; decide),
      by simp [instrEffect, trnEffect, trnrEffect, State.reset], rfl⟩,
    State.reset, _, _, _, 16, 2, exec_completes rfl (by decide), by simp [instrEffect, trnrEffect, State.reset],
      rfl, fun _ _ _ => rfl, exec_completes (by simp [instrEffect, trnrEffect, State.reset])
        (by simp [instrEffect, trnrEffect]; decide),
      by simp [instrEffect, trnEffect, trnrEffect, State.reset], rfl⟩

/-- `W = 8`: a clean destination `[8, 16)` for the rows `[0, 8)`. -/
def cleanDestination : State :=
  block .w8 [(8, 0), (9, 0), (10, 0), (11, 0), (12, 0), (13, 0), (14, 0), (15, 0)]

theorem witness_TrndOnCleanAndOnRepeatedDestination :
    (∃ (s t u : State) (dst src stride : Field), s.fault = false ∧
      (∀ k < s.cfg.width.bits, s.readBlock (dst.toNat + k) = 0) ∧
      exec (.trnd dst src stride) s = .next t ∧ t.fault = false ∧
      exec (.trn src stride) s = .next u) ∧
    ∃ (s t u : State) (dst src stride : Field),
      exec (.trnd dst src stride) s = .next t ∧ exec (.trnd dst src stride) t = .next u :=
  ⟨⟨cleanDestination, _, _, 8, 0, 1, rfl, by decide +kernel, exec_completes rfl (by decide),
      by simp [instrEffect, trndEffect, cleanDestination, block, State.reset],
      exec_completes rfl (by decide)⟩,
    cleanDestination, _, _, 8, 0, 1, exec_completes rfl (by decide), exec_completes
      (by simp [instrEffect, trndEffect, cleanDestination, block, State.reset])
      (by simp [instrEffect, trndEffect]; decide)⟩

theorem witness_ByteSliceRoundTripRestoresTheBatch :
    ∃ (s s₁ s₂ s₃ : State) (x r y : Field), s.fault = false ∧ s₂.fault = false ∧
      (exec (.bsl r x) s = .next s₁ ∧ exec (.ubsl y r) s₂ = .next s₃) ∧ s₁.fault = false ∧
      s₃.fault = false ∧
      ∀ a, r.toNat ≤ a → a < r.toNat + 16 → s₂.readBlock a = s₁.readBlock a :=
  ⟨State.reset, _, _, _, 0, 16, 32, rfl, by simp [instrEffect, bslEffect, State.reset],
    ⟨exec_completes rfl (by decide), exec_completes (by simp [instrEffect, bslEffect, State.reset])
      (by simp [instrEffect, bslEffect]; decide)⟩,
    by simp [instrEffect, bslEffect, State.reset],
    by simp [instrEffect, bslEffect, ubslEffect, State.reset], fun _ _ _ => rfl⟩

theorem witness_ByteSliceRoundTripRestoresTheBatch_unslice_first :
    ∃ (s s₁ s₂ s₃ : State) (x r y : Field), s.fault = false ∧ s₂.fault = false ∧
      (exec (.ubsl r x) s = .next s₁ ∧ exec (.bsl y r) s₂ = .next s₃) ∧ s₁.fault = false ∧
      s₃.fault = false ∧
      ∀ a, r.toNat ≤ a → a < r.toNat + 16 → s₂.readBlock a = s₁.readBlock a :=
  ⟨State.reset, _, _, _, 0, 16, 32, rfl, by simp [instrEffect, ubslEffect, State.reset],
    ⟨exec_completes rfl (by decide), exec_completes (by simp [instrEffect, ubslEffect, State.reset])
      (by simp [instrEffect, ubslEffect]; decide)⟩,
    by simp [instrEffect, ubslEffect, State.reset],
    by simp [instrEffect, bslEffect, ubslEffect, State.reset], fun _ _ _ => rfl⟩

theorem witness_ByteSliceIgnoresTheWordWidth :
    (∃ t, exec (.bsl 16 0) State.reset = .next t) ∧ ∃ t, exec (.ubsl 16 0) State.reset = .next t :=
  ⟨⟨_, rfl⟩, _, rfl⟩

/-- A configuration that differs from `REF` where no product reads: `LOG_TABLE[0]`, `EXP_TABLE[255]`. -/
theorem witness_ScalarProductAddsLogarithmsModulo255 :
    ∃ c d : Config, c.WellFormed ∧ (∀ x, x ≠ 0 → d.logTable.at x = c.logTable.at x) ∧
      (∀ x, x ≠ 255 → d.expTable.at x = c.expTable.at x) ∧ d ≠ c :=
  ⟨Config.reference, { Config.reference with
      logTable := patch refLogTable 0 0xFF, expTable := patch refExpTable 255 0x00 },
    reference_wellFormed, by decide +kernel, by decide +kernel, by decide +kernel⟩

theorem witness_ScalarProductLaws : ∃ c : Config, c.WellFormed ∧ ∃ a b : Byte, a ≠ 0 ∧ b ≠ 0 :=
  ⟨Config.reference, reference_wellFormed, 1, 255, by decide, by decide⟩

theorem witness_AlphaMapIsABijectionForNonzeroAlpha :
    ∃ c : Config, c.WellFormed ∧ c.alpha ≠ 0 := ⟨Config.reference, reference_wellFormed, by decide⟩

theorem witness_LogSentinelIsFreeAndVisibleOnlyInLlkup_tables :
    ∃ c d : Config, c.WellFormed ∧ d = { c with logTable := d.logTable } ∧
      (∀ x, x ≠ 0 → d.logTable.at x = c.logTable.at x) ∧ d ≠ c :=
  ⟨Config.reference, { Config.reference with logTable := patch refLogTable 0 0xFF },
    reference_wellFormed, rfl, by decide +kernel, by decide +kernel⟩

theorem witness_LogSentinelIsFreeAndVisibleOnlyInLlkup_commands :
    ∃ (s t : State) (i : Instr) (T : Table), (∀ x, x ≠ 0 → T.at x = s.cfg.logTable.at x) ∧
      (∀ dst src, i ≠ .llkup dst src .log) ∧ exec i s = .next t ∧ T ≠ s.cfg.logTable :=
  ⟨State.reset, _, .pmul 3 1 2, patch refLogTable 0 0xFF, by decide +kernel, by simp, rfl,
    by decide +kernel⟩

theorem witness_LogSentinelIsFreeAndVisibleOnlyInLlkup_other_lanes :
    ∃ (s t u : State) (dst src : Field) (T : Table),
      (∀ x, x ≠ 0 → T.at x = s.cfg.logTable.at x) ∧ exec (.llkup dst src .log) s = .next t ∧
      exec (.llkup dst src .log) (s.withConfig { s.cfg with logTable := T }) = .next u ∧
      t.fault = false ∧ T ≠ s.cfg.logTable ∧ ∃ l < 16, byteOf (s.readBlock src.toNat) l ≠ 0 :=
  ⟨{ State.reset with mem := [(1, 1)] }, _, _, 2, 1, patch refLogTable 0 0xFF, by decide +kernel, rfl,
    rfl, rfl, by decide +kernel, 0, by decide, by decide⟩

/-- A source block whose lanes are all 0. -/
theorem witness_LogSentinelIsFreeAndVisibleOnlyInLlkup_zero_source :
    ∃ (s t u : State) (dst src : Field) (T : Table),
      (∀ x, x ≠ 0 → T.at x = s.cfg.logTable.at x) ∧ exec (.llkup dst src .log) s = .next t ∧
      exec (.llkup dst src .log) (s.withConfig { s.cfg with logTable := T }) = .next u ∧
      t.fault = false ∧ T ≠ s.cfg.logTable ∧ s.readBlock src.toNat = 0 :=
  ⟨{ State.reset with mem := [(1, 0)] }, _, _, 2, 1, patch refLogTable 0 0xFF, by decide +kernel, rfl,
    rfl, rfl, by decide +kernel, rfl⟩

theorem witness_LogSentinelIsFreeAndVisibleOnlyInLlkup_lane :
    ∃ (s t : State) (dst src : Field) (l : Nat), s.fault = false ∧
      exec (.llkup dst src .log) s = .next t ∧ t.fault = false ∧ l < 16 ∧
      byteOf (s.readBlock src.toNat) l = 0 :=
  ⟨{ State.reset with mem := [(1, 1)] }, _, 2, 1, 15, rfl, rfl, rfl, by decide, by decide⟩

theorem witness_QuadrantLookupIsTheTableLookup : 15 < 16 := by decide

theorem witness_PackedMultiplyIsSixteenScalarMultiplies : ∃ c : Config, c.WellFormed :=
  ⟨Config.reference, reference_wellFormed⟩

theorem witness_PmulcLlkupAlphaAndPmulByAlphaAgree :
    ∃ (s t₁ t₂ t₃ : State) (dst src q : Field), s.Launch ∧
      (∀ l < 16, byteOf (s.readBlock q.toNat) l = s.cfg.alpha) ∧
      exec (.pmulc dst src) s = .next t₁ ∧ t₁.fault = false ∧
      exec (.llkup dst src .alpha) s = .next t₂ ∧ exec (.pmul dst src q) s = .next t₃ ∧
      t₃.fault = false :=
  ⟨{ State.reset with mem := [(2, 0x10101010101010101010101010101010)] }, _, _, _, 3, 1, 2,
    ⟨rfl, reference_wellFormed⟩, by decide +kernel, rfl, rfl, rfl, rfl, rfl⟩

end Sys2Proof.Tests
end

section
/-! SUPPORT. Replacing a part of a block (00_scope.md R12) and a word of a region (R13): what reads back. -/

namespace Sys2Proof.Machine

/-- A block cut into parts of `k` bits: replacing part `m` replaces that part alone (R12). -/
theorem extractLsb'_replacePart {k : Nat} (v : Block) (m : Nat) (x : BitVec k) {n : Nat}
    (hn : k * n + k ≤ 128) :
    (bitsOf 128 fun p => if p / k = m then x.getLsbD (p % k) else v.getLsbD p).extractLsb' (k * n) k =
      if n = m then x else v.extractLsb' (k * n) k := by
  apply BitVec.eq_of_getLsbD_eq
  intro j hj
  have hlt : k * n + j < 128 := by omega
  have hdiv : (k * n + j) / k = n := by
    rw [Nat.mul_add_div (by omega), Nat.div_eq_of_lt hj, Nat.add_zero]
  have hmod : (k * n + j) % k = j := by rw [Nat.mul_add_mod, Nat.mod_eq_of_lt hj]
  rw [BitVec.getLsbD_extractLsb', bitsOf_getLsbD, hdiv, hmod]
  split <;> simp [hj, hlt]

theorem byteOf_setByte (v : Block) (m : Nat) (x : Byte) {n : Nat} (hn : n < 16) :
    byteOf (setByte v m x) n = if n = m then x else byteOf v n :=
  extractLsb'_replacePart v m x (by omega)

/-- Word `n` ends inside the block (`W * WPB = 128`, R5). -/
theorem word_end_le (w : WordWidth) {n : Nat} (hn : n < w.wordsPerBlock) :
    w.bits * n + w.bits ≤ 128 := by
  rw [← Nat.mul_succ, ← bits_mul_wordsPerBlock w]
  exact Nat.mul_le_mul_left _ hn

theorem wordOf_setWord (w : WordWidth) (v : Block) (m : Nat) (x : BitVec w.bits) {n : Nat}
    (hn : n < w.wordsPerBlock) :
    wordOf w (setWord w v m x) n = if n = m then x else wordOf w v n :=
  extractLsb'_replacePart v m x (word_end_le w hn)

theorem readBlock_writeWord (s : State) (a n : Nat) (x : BitVec s.cfg.width.bits) (b : Nat) :
    (s.writeWord a n x).readBlock b =
      if a + n / s.cfg.width.wordsPerBlock = b then
        setWord s.cfg.width (s.readBlock (a + n / s.cfg.width.wordsPerBlock))
          (n % s.cfg.width.wordsPerBlock) x
      else s.readBlock b :=
  readBlock_writeBlock s _ _ b

/-- Words are numbered by the quotient and the remainder by `WPB`: two words of one block that differ
have different places in it. -/
theorem readWord_writeWord (s : State) (a n : Nat) (x : BitVec s.cfg.width.bits) (m : Nat) :
    (s.writeWord a n x).readWord a m = if m = n then x else s.readWord a m := by
  change wordOf s.cfg.width ((s.writeWord a n x).readBlock (a + m / s.cfg.width.wordsPerBlock))
    (m % s.cfg.width.wordsPerBlock) = _
  rw [readBlock_writeWord]
  by_cases hblock : n / s.cfg.width.wordsPerBlock = m / s.cfg.width.wordsPerBlock
  · have hplace : m % s.cfg.width.wordsPerBlock = n % s.cfg.width.wordsPerBlock ↔ m = n :=
      ⟨fun h => Nat.ext_div_modEq hblock.symm h, fun h => h ▸ rfl⟩
    rw [if_pos (congrArg (a + ·) hblock), wordOf_setWord _ _ _ _ (Nat.mod_lt _ (wordsPerBlock_pos _)), hblock]
    simp only [hplace, State.readWord]
  · have hne : m ≠ n := fun h => hblock (h ▸ rfl)
    rw [if_neg (fun h => hblock (Nat.add_left_cancel h)), if_neg hne, State.readWord]

/-- A common address is one at or above both bases and below both ends (R16). -/
theorem overlaps_iff_exists_mem (r q : Region) : r.overlaps q = true ↔
    ∃ a, (r.base ≤ a ∧ a < r.base + r.size) ∧ q.base ≤ a ∧ a < q.base + q.size := by
  rw [Region.overlaps, decide_eq_true_eq]
  constructor
  · intro h
    exact ⟨max r.base q.base, by omega⟩
  · rintro ⟨a, hr, hq⟩
    omega

theorem inRange_iff (r : Region) (n : Nat) : r.inRange n = true ↔ r.base + r.size ≤ n :=
  decide_eq_true_iff

theorem mem_span_iff (w : WordWidth) (a st x : Nat) :
    ((span w a st).base ≤ x ∧ x < (span w a st).base + (span w a st).size) ↔
      a ≤ x ∧ x < a + (w.bits - 1) * st + 1 := by
  rw [span, Nat.add_assoc]

end Sys2Proof.Machine
end

section
/-! PROOFS. The statements about blocks, words and regions of 00_scope.md. -/

namespace Sys2Proof.Proofs.Scope

open Sys2Proof.Machine

/-- Settles O41: R13's word write, read back at every word of the region and every other block. -/
theorem wordWriteReplacesThatWordOnly : Obligations.WordWriteReplacesThatWordOnly := by
  intro s a n x
  refine ⟨rfl, ?written, fun m hm => ?otherWord, fun b hb => ?otherBlock⟩
  case written => rw [readWord_writeWord, if_pos rfl]
  case otherWord => rw [readWord_writeWord, if_neg hm]
  case otherBlock => rw [readBlock_writeWord, if_neg hb.symm]

/-- Settles O40: R12's parts by bit position, and the replacement of a part. -/
theorem wordsAndBytesOfABlock : Obligations.WordsAndBytesOfABlock := by
  intro w v
  refine ⟨fun m _ j hj => ?word, fun n _ j hj => ?byte, fun m _ x n hn => wordOf_setWord w v m x hn,
    fun m _ x n hn => byteOf_setByte v m x hn⟩
  case word => rw [wordOf_getLsbD, decide_eq_true hj, Bool.true_and]
  case byte => rw [byteOf_getLsbD, decide_eq_true hj, Bool.true_and]

/-- Settles O43: R16's overlap, `inrange` and span. -/
theorem regionTestsSayWhatTheRegionsAre : Obligations.RegionTestsSayWhatTheRegionsAre :=
  ⟨overlaps_iff_exists_mem, inRange_iff, mem_span_iff⟩

end Sys2Proof.Proofs.Scope
end

section
/-! SUPPORT. The encoder against the decoder (30_encoding.md R60 to R63): the word of five fields has those
fields, and the word of a command is legal and is that command's. -/

namespace Sys2Proof

/-- The word of five fields has these fields (R60). -/
@[simp] theorem Cw64.ofWord_word (f : Cw64) : Cw64.ofWord f.word = f := by
  obtain ⟨op, z, a, b, c⟩ := f
  simp only [Cw64.ofWord, Cw64.word, Cw64.mk.injEq]
  refine ⟨?op, ?z, ?a, ?b, ?c⟩
  all_goals
    ext j hj
    grind

/-- The low byte of a byte put into a field is that byte (R61). -/
@[simp] theorem byteImmediate_setWidth (x : Byte) : byteImmediate (x.setWidth 16) = x := by
  ext j hj
  grind [byteImmediate]

/-- A byte put into a field leaves bits 15:8 zero (R61). -/
@[simp] theorem isByte_setWidth (x : Byte) : isByte (x.setWidth 16) = true := by
  rw [isByte, decide_eq_true_eq]
  ext j hj
  simp

@[simp] theorem tableSelect_field (t : TableSel) : tableSelect t.field = some t := by
  cases t <;> rfl

theorem encodeFields_z (i : Instr) : (encodeFields i).z = 0 := by cases i <;> rfl

/-- The fields of a command are legal and name that command (R62). -/
theorem decodeFields_encodeFields (i : Instr) : decodeFields (encodeFields i) = .ok i := by
  cases i with
  | trn base stride => rfl
  | trnd dst src stride => rfl
  | trnr base stride => rfl
  | bsl dst src => rfl
  | ubsl dst src => rfl
  | gfmul lhs rhs => simp [decodeFields, encodeFields]
  | gfmulc rhs => simp [decodeFields, encodeFields]
  | llkup dst src table => simp [decodeFields, encodeFields]
  | pmul dst a b => rfl
  | pmulc dst src => rfl
  | bmul64 dst a b => rfl

/-- The word of a command decodes to that command (R62). -/
theorem decode_encode (i : Instr) : decode (encode i) = .ok i := by
  rw [decode, encode, Cw64.ofWord_word, if_pos (encodeFields_z i), decodeFields_encodeFields]

end Sys2Proof
end

section
/-! SUPPORT. What a command leaves of the state: its effect field by field, the blocks it lists, and that a
command whose checks pass writes inside `MEM` (20_memory.md R44, R46). -/

namespace Sys2Proof.Machine

section Fields

variable (i : Instr) (s : State)

@[simp] theorem instrEffect_cfg : (instrEffect i s).cfg = s.cfg := by rw [instrEffect_eq]
@[simp] theorem instrEffect_fault : (instrEffect i s).fault = s.fault := by rw [instrEffect_eq]
@[simp] theorem instrEffect_cause : (instrEffect i s).cause = s.cause := by rw [instrEffect_eq]
@[simp] theorem instrEffect_fcmd : (instrEffect i s).fcmd = s.fcmd := by rw [instrEffect_eq]
@[simp] theorem instrEffect_moves : (instrEffect i s).moves = s.moves := by rw [instrEffect_eq]
@[simp] theorem instrEffect_replies : (instrEffect i s).replies = s.replies := by rw [instrEffect_eq]
@[simp] theorem instrEffect_epoch : (instrEffect i s).epoch = s.epoch := by rw [instrEffect_eq]

end Fields

/-- No effect but that of `GFMUL` and `GFMULC` touches `SRES` (R28). -/
theorem instrEffect_sres {i : Instr} (hmul : i.mnemonic ≠ "GFMUL") (hmulc : i.mnemonic ≠ "GFMULC")
    (s : State) : (instrEffect i s).sres = s.sres := by
  cases i with
  | trn base stride => exact writeView_sres ..
  | trnd dst src stride => exact writeView_sres ..
  | trnr base stride => exact writeView_sres ..
  | bsl dst src => exact writeView_sres ..
  | ubsl dst src => exact writeView_sres ..
  | gfmul lhs rhs => exact absurd rfl hmul
  | gfmulc rhs => exact absurd rfl hmulc
  | llkup dst src table => rfl
  | pmul dst a b => rfl
  | pmulc dst src => rfl
  | bmul64 dst a b => exact writeView_sres ..

/-- The listed blocks after writing one block are those listed before and that block. -/
theorem mem_writeBlock {s : State} {a : Nat} {v : Block} {p : Nat × Block}
    (h : p ∈ (s.writeBlock a v).mem) : p ∈ s.mem ∨ p.1 = a :=
  (mem_write h).symm.imp_right fun hp => congrArg Prod.fst hp

/-- The listed blocks after writing a dense group are those listed before and blocks of the group. -/
theorem mem_writeView_dense {s : State} {f : Nat} {v : Nat → Block} {n : Nat} {p : Nat × Block}
    (h : p ∈ (s.writeView f 1 v n).mem) : p ∈ s.mem ∨ f ≤ p.1 ∧ p.1 < f + n := by
  rcases mem_writeView h with h | ⟨k, hk, hp⟩
  · exact .inl h
  · rw [viewAddr] at hp
    exact .inr (by omega)

/-- The listed blocks after an effect are those listed before and blocks of the writes column of R44. -/
theorem mem_instrEffect {i : Instr} {s : State} {p : Nat × Block} (h : p ∈ (instrEffect i s).mem) :
    p ∈ s.mem ∨ writesBlock s.cfg.width p.1 i := by
  cases i with
  | trn base stride => exact mem_writeView_dense h
  | trnd dst src stride => exact mem_writeView_dense h
  | trnr base stride => exact mem_writeView h
  | bsl dst src => exact mem_writeView_dense h
  | ubsl dst src => exact mem_writeView_dense h
  | gfmul lhs rhs => exact .inl h
  | gfmulc rhs => exact .inl h
  | llkup dst src table => exact mem_writeBlock h
  | pmul dst a b => exact mem_writeBlock h
  | pmulc dst src => exact mem_writeBlock h
  | bmul64 dst a b => exact mem_writeView_dense h

/-- A strided view of `W` blocks lies in its span (R16). -/
theorem viewAddr_lt_span_end (w : WordWidth) (f st : Nat) {k : Nat} (hk : k < w.bits) :
    viewAddr f st k < f + ((w.bits - 1) * st + 1) := by
  have := Nat.mul_le_mul_right st (Nat.le_sub_one_of_lt hk)
  rw [viewAddr]
  omega

/-- The dense group of `W` blocks ends inside the span of a nonzero stride. -/
theorem bits_le_span_size (w : WordWidth) {st : Nat} (hst : st ≠ 0) :
    w.bits ≤ (w.bits - 1) * st + 1 := by
  have := Nat.le_mul_of_pos_right (w.bits - 1) (Nat.pos_of_ne_zero hst)
  omega

/-- A command whose checks pass writes blocks of `MEM` only (R46). -/
theorem writesBlock_lt {c : Config} {i : Instr} {a : Nat} (hc : instrCause c i = none)
    (ha : writesBlock c.width a i) : a < c.memBlocks := by
  cases i with
  | trn base stride =>
    obtain ⟨hst, hspan⟩ := (trnCause_eq_none c base stride).mp hc
    have := bits_le_span_size c.width hst
    obtain ⟨_, hlt⟩ := ha
    omega
  | trnd dst src stride =>
    obtain ⟨_, ⟨_, hdst⟩, _⟩ := (trndCause_eq_none c dst src stride).mp hc
    exact Nat.lt_of_lt_of_le ha.2 hdst
  | trnr base stride =>
    obtain ⟨_, hspan⟩ := (trnrCause_eq_none c base stride).mp hc
    obtain ⟨k, hk, rfl⟩ := ha
    exact Nat.lt_of_lt_of_le (viewAddr_lt_span_end c.width base.toNat stride.toNat hk) hspan
  | bsl dst src =>
    obtain ⟨⟨_, hdst⟩, _⟩ := (copyCause_eq_none c dst src 16).mp hc
    exact Nat.lt_of_lt_of_le ha.2 hdst
  | ubsl dst src =>
    obtain ⟨⟨_, hdst⟩, _⟩ := (copyCause_eq_none c dst src 16).mp hc
    exact Nat.lt_of_lt_of_le ha.2 hdst
  | gfmul lhs rhs => exact ha.elim
  | gfmulc rhs => exact ha.elim
  | llkup dst src table =>
    obtain ⟨⟨_, hdst⟩, _⟩ := (laneCopyCause_eq_none c dst src).mp hc
    exact ha ▸ hdst
  | pmul dst x y =>
    obtain ⟨⟨_, hdst⟩, _⟩ := (pmulCause_eq_none c dst x y).mp hc
    exact ha ▸ hdst
  | pmulc dst src =>
    obtain ⟨⟨_, hdst⟩, _⟩ := (laneCopyCause_eq_none c dst src).mp hc
    exact ha ▸ hdst
  | bmul64 dst x y =>
    obtain ⟨⟨_, hdst⟩, _⟩ := (bmul64Cause_eq_none c dst x y).mp hc
    exact Nat.lt_of_lt_of_le ha.2 hdst

/-! ### The fault of a word -/

theorem wordCause_ok (c : Config) {cw : Command} {i : Instr} (h : decode cw = .ok i) :
    wordCause c cw = instrCause c i := by simp only [wordCause, h]

theorem wordCause_error (c : Config) {cw : Command} {e : Illegal} (h : decode cw = .error e) :
    wordCause c cw = some .illegalCommand := by simp only [wordCause, h]

/-- The word a meaning records (log 11) has the fault of its command. -/
@[simp] theorem wordCause_encode (c : Config) (i : Instr) : wordCause c (encode i) = instrCause c i :=
  wordCause_ok c (decode_encode i)

/-- What `ISSUE` can do (R64): the word is ignored; it faults, and the word recorded in `FCMD` is one of
that fault; or its command, whose checks pass, has its effect. -/
theorem issue_outcome {cw : Command} {s t : State} (h : issue cw s = .next t) :
    (s.fault = true ∧ t = s) ∨
    (s.fault = false ∧ ∃ c w, wordCause s.cfg w = some c ∧ t = s.raiseFault c w) ∨
    (s.fault = false ∧ ∃ i, instrCause s.cfg i = none ∧ t = instrEffect i s) := by
  rcases issue_cases h with h | ⟨hf, ⟨e, he⟩, ht⟩ | ⟨i, _, hf, ⟨c, hc, ht⟩ | h⟩
  · exact .inl h
  · exact .inr (.inl ⟨hf, _, cw, wordCause_error s.cfg he, ht⟩)
  · exact .inr (.inl ⟨hf, c, encode i, (wordCause_encode s.cfg i).trans hc, ht⟩)
  · exact .inr (.inr ⟨hf, i, h⟩)

/-- A move of the host keeps the parameters (R31) and the moves after it. -/
theorem makeMove_keeps_cfg_moves {m : HostMove} {s t : State} (h : makeMove m s = .next t) :
    t.cfg = s.cfg ∧ t.moves = s.moves := by
  rcases makeMove_cases h with ⟨cw, rfl, hi⟩ | ⟨a, v, _, _, rfl⟩ | ⟨r, _, rfl⟩ | ⟨_, rfl⟩
  · rcases issue_outcome hi with ⟨_, rfl⟩ | ⟨_, c, w, _, rfl⟩ | ⟨_, i, _, rfl⟩
    · exact ⟨rfl, rfl⟩
    · exact ⟨rfl, rfl⟩
    · exact ⟨instrEffect_cfg i s, instrEffect_moves i s⟩
  · exact ⟨rfl, rfl⟩
  · exact ⟨rfl, rfl⟩
  · exact ⟨rfl, rfl⟩

end Sys2Proof.Machine
end

section
/-! SUPPORT. The invariant of the block (10_state.md R26, R27): what has it from scratch, and that each
operation of a step keeps it. -/

namespace Sys2Proof.Machine

/-- The tables `REF` and the size of 1024 blocks pass their checks (R7, R111 to R116). -/
theorem reference_wellFormed : Config.reference.WellFormed := by decide +kernel

/-- A running block with nothing recorded and nothing written has the invariant. -/
theorem inv_of_cleared {s : State} (hf : s.fault = false) (hc : s.cause = 0) (hw : s.fcmd = 0)
    (hm : s.mem = []) : s.Inv where
  running _ := ⟨hc, hw⟩
  halted h := by simp [hf] at h
  memWf := hm ▸ List.Pairwise.nil
  memInRange := by simp [hm]

namespace State.Inv

variable {s : State}

/-- The invariant does not speak of the host's moves (log 5). -/
theorem withMoves (h : s.Inv) (ms : List HostMove) : State.Inv { s with moves := ms } :=
  ⟨h.running, h.halted, h.memWf, h.memInRange⟩

theorem reply (h : s.Inv) (r : HostReply) : (s.reply r).Inv :=
  ⟨h.running, h.halted, h.memWf, h.memInRange⟩

theorem doReset (s : State) : s.doReset.Inv := inv_of_cleared rfl rfl rfl rfl

theorem writeBlock (h : s.Inv) {a : Nat} (ha : a < s.cfg.memBlocks) (v : Block) :
    (s.writeBlock a v).Inv where
  running := h.running
  halted := h.halted
  memWf := write_wf h.memWf a v
  memInRange p hp := by
    rcases mem_writeBlock hp with hp | hp
    · exact h.memInRange p hp
    · exact hp ▸ ha

/-- Fault entry (60_exceptions.md R163) with a word that has that fault. -/
theorem raiseFault (h : s.Inv) {c : Cause} {w : Command} (hw : wordCause s.cfg w = some c) :
    (s.raiseFault c w).Inv where
  running hf := by simp at hf
  halted _ := ⟨c, hw, rfl⟩
  memWf := h.memWf
  memInRange := h.memInRange

/-- The effect of a command whose checks pass. -/
theorem instrEffect (h : s.Inv) {i : Instr} (hc : instrCause s.cfg i = none) :
    (instrEffect i s).Inv where
  running := by simpa using h.running
  halted := by simpa using h.halted
  memWf := instrEffect_wf i h.memWf
  memInRange p hp := by
    rw [instrEffect_cfg]
    rcases mem_instrEffect hp with hp | hp
    · exact h.memInRange p hp
    · exact writesBlock_lt hc hp

theorem issue (h : s.Inv) {cw : Command} {t : State} (ht : issue cw s = .next t) : t.Inv := by
  rcases issue_outcome ht with ⟨_, rfl⟩ | ⟨_, c, w, hw, rfl⟩ | ⟨_, i, hc, rfl⟩
  · exact h
  · exact h.raiseFault hw
  · exact h.instrEffect hc

theorem makeMove (h : s.Inv) {m : HostMove} {t : State} (ht : makeMove m s = .next t) : t.Inv := by
  rcases makeMove_cases ht with ⟨cw, rfl, hi⟩ | ⟨a, v, _, ha, rfl⟩ | ⟨r, _, rfl⟩ | ⟨_, rfl⟩
  · exact h.issue hi
  · exact h.writeBlock ha v
  · exact h.reply r
  · exact doReset s

theorem step (h : s.Inv) {t : State} (ht : step s = .next t) : t.Inv := by
  cases hm : s.moves with
  | nil =>
    rw [step_idle hm] at ht
    exact Host.Outcome.next.inj ht ▸ h
  | cons m rest =>
    rw [step_cons hm] at ht
    exact (h.withMoves rest).makeMove ht

end State.Inv

/-- The codes of R161 are 1 to 4. -/
theorem Cause.code_bounds (c : Cause) : 1 ≤ c.code.toNat ∧ c.code.toNat ≤ 4 := by
  cases c <;> decide

end Sys2Proof.Machine
end

section
/-! PROOFS. The statements about the state of 10_state.md. -/

namespace Sys2Proof.Proofs.BlockState

open Sys2Proof Sys2Proof.Machine

/-- Settles O15: each operation a step is made of keeps the invariant. -/
theorem everyStepKeepsTheInvariant : Obligations.EveryStepKeepsTheInvariant :=
  fun _ _ h ht => h.step ht

/-- Settles O8, by whether a move is waiting. -/
theorem stepKeepsTheConfigurationAndTakesOneMove :
    Obligations.StepKeepsTheConfigurationAndTakesOneMove := by
  intro s t h
  cases hm : s.moves with
  | nil =>
    rw [step_idle hm] at h
    cases h
    exact ⟨rfl, hm⟩
  | cons m rest =>
    rw [step_cons hm] at h
    exact makeMove_keeps_cfg_moves h

/-- Settles O38, by the three outcomes of a command. -/
theorem sresIsWrittenByNoOtherCommand : Obligations.SresIsWrittenByNoOtherCommand := by
  refine ⟨fun s lhs rhs hf => ⟨_, exec_completes hf rfl, rfl⟩,
    fun s rhs hf => ⟨_, exec_completes hf rfl, rfl⟩,
    fun s t i hmul hmulc h => ?otherCommand, fun s t cw h ht => ?notExecuted⟩
  case otherCommand =>
    rcases exec_cases h with ⟨_, rfl⟩ | ⟨_, c, _, rfl⟩ | ⟨_, _, rfl⟩
    · rfl
    · rfl
    · exact instrEffect_sres hmul hmulc s
  case notExecuted =>
    rcases issue_outcome h with ⟨_, rfl⟩ | ⟨_, c, w, _, rfl⟩ | ⟨hf, i, _, rfl⟩
    · rfl
    · rfl
    · simp [hf] at ht

/-- Settles O9: the fields of `State.reset`, and R26's layout of zeros. -/
theorem powerOnStateHoldsTheResetValues : Obligations.PowerOnStateHoldsTheResetValues :=
  ⟨rfl, rfl, rfl, rfl, by decide, fun _ => rfl⟩

/-- Settles O11, move by move. -/
theorem hostMovesHaveTheirEffects : Obligations.HostMovesHaveTheirEffects := by
  refine ⟨fun s cw => rfl, fun s a v ha => ?write, fun s a ha => if_pos ha,
    fun s a v ha => ⟨if_neg ha.not_gt, if_neg ha.not_gt⟩, fun s => ⟨rfl, rfl, rfl⟩⟩
  case write =>
    refine ⟨s.writeBlock a v, if_pos ha, rfl, ?_, fun b hb => ?_⟩
    · rw [readBlock_writeBlock, if_pos rfl]
    · rw [readBlock_writeBlock, if_neg hb.symm]

/-- Settles O13, bit by bit of the four parts of `STATUS`. -/
theorem statusRegisterLayout : Obligations.StatusRegisterLayout := by
  intro s
  refine ⟨?fault, ?low, ?cause, ?high⟩
  case fault => grind [State.status]
  case low => ext j hj; grind [State.status]
  case cause => ext j hj; grind [State.status]
  case high => ext j hj; grind [State.status]

/-- Settles O14. -/
theorem resetStateMeetsTheInvariant : Obligations.ResetStateMeetsTheInvariant :=
  ⟨inv_of_cleared rfl rfl rfl rfl, rfl, reference_wellFormed⟩

/-- Settles O16: `CAUSE` is zero or the code of a cause. -/
theorem causeIsZeroOrOneOfFourCodes : Obligations.CauseIsZeroOrOneOfFourCodes := by
  intro s h
  refine ⟨fun hf => (h.running hf).1, fun hf => ?_⟩
  obtain ⟨c, _, hc⟩ := h.halted hf
  exact hc ▸ c.code_bounds

end Sys2Proof.Proofs.BlockState
end

section
/-! SUPPORT. A bit of a block in its word and in its byte (00_scope.md R12, 20_memory.md R41). -/

namespace Sys2Proof.Machine

/-- Bit `p` lies in word `p div W` at bit `p mod W`. -/
theorem wordOf_getLsbD_div_mod (w : WordWidth) (v : Block) (p : Nat) :
    (wordOf w v (p / w.bits)).getLsbD (p % w.bits) = v.getLsbD p := by
  rw [wordOf_getLsbD, Nat.div_add_mod, decide_eq_true (Nat.mod_lt p (bits_pos w)), Bool.true_and]

/-- Bit `p` lies in byte `p div 8` at bit `p mod 8`. -/
theorem byteOf_getLsbD_div_mod (v : Block) (p : Nat) :
    (byteOf v (p / 8)).getLsbD (p % 8) = v.getLsbD p := by
  rw [byteOf_getLsbD, Nat.div_add_mod, decide_eq_true (Nat.mod_lt p (by decide)), Bool.true_and]

/-- A byte lies in one word, since `W` is a multiple of 8: each of its bits has the word of the first. -/
theorem byte_bit_div_mod (w : WordWidth) (n : Nat) {j : Nat} (hj : j < 8) :
    (8 * n + j) / w.bits = 8 * n / w.bits ∧ (8 * n + j) % w.bits = 8 * n % w.bits + j := by
  cases w <;> simp only [WordWidth.bits] <;> omega

theorem byteOf_eq_extract_wordOf (w : WordWidth) (v : Block) (n : Nat) :
    byteOf v n = (wordOf w v (8 * n / w.bits)).extractLsb' (8 * n % w.bits) 8 := by
  apply BitVec.eq_of_getLsbD_eq
  intro j hj
  obtain ⟨hdiv, hmod⟩ := byte_bit_div_mod w n hj
  rw [byteOf_getLsbD, BitVec.getLsbD_extractLsb', ← hdiv, ← hmod, wordOf_getLsbD_div_mod]

end Sys2Proof.Machine
end

section
/-! SUPPORT. The regions of 20_memory.md R44: what the blocks of a view read after it is written, and so what
the effect of a command leaves unchanged, what it depends on and what it lists as written. -/

namespace Sys2Proof.Machine

/-- The dense group at `f` is the view with stride 1 (20_memory.md R55). -/
theorem mem_dense_iff (f n a : Nat) : f ≤ a ∧ a < f + n ↔ ∃ k < n, a = viewAddr f 1 k := by
  simp only [viewAddr, Nat.mul_one]
  exact ⟨fun h => ⟨a - f, by omega⟩, fun ⟨k, hk, ha⟩ => by omega⟩

theorem readBlock_writeView_dense_of_not_mem (s : State) {f n a : Nat} (v : Nat → Block)
    (ha : ¬ (f ≤ a ∧ a < f + n)) : (s.writeView f 1 v n).readBlock a = s.readBlock a :=
  readBlock_writeView_of_ne s f 1 v n a fun k hk h => ha ((mem_dense_iff f n a).mpr ⟨k, hk, h⟩)

/-- A written view holds what was written, whatever the state held. -/
theorem readBlock_writeView_congr (s₁ s₂ : State) {f st n a : Nat} {v₁ v₂ : Nat → Block} (hst : st ≠ 0)
    (hv : ∀ k < n, v₁ k = v₂ k) (ha : ∃ k < n, a = viewAddr f st k) :
    (s₁.writeView f st v₁ n).readBlock a = (s₂.writeView f st v₂ n).readBlock a := by
  obtain ⟨k, hk, rfl⟩ := ha
  rw [readBlock_writeView s₁ f hst v₁ hk, readBlock_writeView s₂ f hst v₂ hk, hv k hk]

theorem readBlock_writeView_dense_congr (s₁ s₂ : State) {f n a : Nat} {v₁ v₂ : Nat → Block}
    (hv : ∀ k < n, v₁ k = v₂ k) (ha : f ≤ a ∧ a < f + n) :
    (s₁.writeView f 1 v₁ n).readBlock a = (s₂.writeView f 1 v₂ n).readBlock a :=
  readBlock_writeView_congr s₁ s₂ Nat.one_ne_zero hv ((mem_dense_iff f n a).mp ha)

theorem readBlock_writeBlock_congr (s₁ s₂ : State) {f a : Nat} {v₁ v₂ : Block} (hv : v₁ = v₂)
    (ha : a = f) : (s₁.writeBlock f v₁).readBlock a = (s₂.writeBlock f v₂).readBlock a := by
  rw [readBlock_writeBlock, readBlock_writeBlock, if_pos ha.symm, if_pos ha.symm, hv]

/-- Two states that agree on a dense group have the same view of it. -/
theorem view_congr_dense {s₁ s₂ : State} {f n : Nat}
    (h : ∀ a, f ≤ a ∧ a < f + n → s₁.readBlock a = s₂.readBlock a) :
    ∀ k < n, s₁.view f 1 k = s₂.view f 1 k :=
  fun k hk => h _ ((mem_dense_iff f n _).mpr ⟨k, hk, rfl⟩)

theorem find?_writeBlock_isSome (s : State) {f a : Nat} (v : Block) (ha : a = f) :
    ((s.writeBlock f v).mem.find? a).isSome = true := by
  rw [writeBlock_mem, find?_write, if_pos ha.symm]
  rfl

/-- Every block of a written view is listed, whatever was listed before. -/
theorem find?_writeView_isSome (s : State) {f st n a : Nat} (v : Nat → Block)
    (ha : ∃ k < n, a = viewAddr f st k) : ((s.writeView f st v n).mem.find? a).isSome = true := by
  induction n with
  | zero =>
    obtain ⟨k, hk, _⟩ := ha
    exact absurd hk k.not_lt_zero
  | succ n ih =>
    rw [State.writeView, writeBlock_mem, find?_write]
    split
    · rfl
    · next hne =>
      obtain ⟨k, hk, rfl⟩ := ha
      have hkn : k ≠ n := fun h => hne (h ▸ rfl)
      exact ih ⟨k, by omega, rfl⟩

theorem find?_writeView_dense_isSome (s : State) {f n a : Nat} (v : Nat → Block)
    (ha : f ≤ a ∧ a < f + n) : ((s.writeView f 1 v n).mem.find? a).isSome = true :=
  find?_writeView_isSome s v ((mem_dense_iff f n a).mp ha)

/-! ### The regions of a command -/

/-- An effect leaves every block outside the writes column of R44. -/
theorem instrEffect_readBlock_of_not_writesBlock {i : Instr} {s : State} {a : Nat}
    (ha : ¬ writesBlock s.cfg.width a i) : (instrEffect i s).readBlock a = s.readBlock a := by
  have block (f : Nat) (v : Block) (h : ¬ a = f) : (s.writeBlock f v).readBlock a = s.readBlock a := by
    rw [readBlock_writeBlock, if_neg (Ne.symm h)]
  cases i with
  | trn base stride => exact readBlock_writeView_dense_of_not_mem s _ ha
  | trnd dst src stride => exact readBlock_writeView_dense_of_not_mem s _ ha
  | trnr base stride =>
    exact readBlock_writeView_of_ne s _ _ _ _ a fun k hk h => ha ⟨k, hk, h⟩
  | bsl dst src => exact readBlock_writeView_dense_of_not_mem s _ ha
  | ubsl dst src => exact readBlock_writeView_dense_of_not_mem s _ ha
  | gfmul lhs rhs => rfl
  | gfmulc rhs => rfl
  | llkup dst src table => exact block _ _ ha
  | pmul dst x y => exact block _ _ ha
  | pmulc dst src => exact block _ _ ha
  | bmul64 dst x y => exact readBlock_writeView_dense_of_not_mem s _ ha

/-- A command lists every block of its writes column (log 4). -/
theorem find?_instrEffect_isSome {i : Instr} {s : State} {a : Nat}
    (ha : writesBlock s.cfg.width a i) : ((instrEffect i s).mem.find? a).isSome = true := by
  cases i with
  | trn base stride => exact find?_writeView_dense_isSome s _ ha
  | trnd dst src stride => exact find?_writeView_dense_isSome s _ ha
  | trnr base stride => exact find?_writeView_isSome s _ ha
  | bsl dst src => exact find?_writeView_dense_isSome s _ ha
  | ubsl dst src => exact find?_writeView_dense_isSome s _ ha
  | gfmul lhs rhs => exact ha.elim
  | gfmulc rhs => exact ha.elim
  | llkup dst src table => exact find?_writeBlock_isSome s _ ha
  | pmul dst x y => exact find?_writeBlock_isSome s _ ha
  | pmulc dst src => exact find?_writeBlock_isSome s _ ha
  | bmul64 dst x y => exact find?_writeView_dense_isSome s _ ha

/-- `BSF` reads the sixteen elements alone (R100). -/
theorem byteSlice_congr {E E' : Nat → Block} (h : ∀ e < 16, E e = E' e) : byteSlice E = byteSlice E' :=
  funext fun b => lanesOf_congr fun e he => congrArg (byteOf · b) (h e he)

/-- `UBSF` reads the sixteen rows alone (R101). -/
theorem byteUnslice_congr {S S' : Nat → Block} (h : ∀ b < 16, S b = S' b) :
    byteUnslice S = byteUnslice S' :=
  byteSlice_congr h

/-- `SRES` after an effect depends on the configuration and `SRES` alone (R28). -/
theorem instrEffect_sres_congr (i : Instr) {s₁ s₂ : State} (hcfg : s₁.cfg = s₂.cfg)
    (hsres : s₁.sres = s₂.sres) : (instrEffect i s₁).sres = (instrEffect i s₂).sres := by
  have view (f st : Nat) (v₁ v₂ : Nat → Block) (n₁ n₂ : Nat) :
      (s₁.writeView f st v₁ n₁).sres = (s₂.writeView f st v₂ n₂).sres := by
    rw [writeView_sres, writeView_sres, hsres]
  cases i with
  | trn base stride => exact view ..
  | trnd dst src stride => exact view ..
  | trnr base stride => exact view ..
  | bsl dst src => exact view ..
  | ubsl dst src => exact view ..
  | gfmul lhs rhs => exact congrArg (gmul · lhs rhs) hcfg
  | gfmulc rhs => exact congrArg (gmulc · rhs) hcfg
  | llkup dst src table => exact hsres
  | pmul dst x y => exact hsres
  | pmulc dst src => exact hsres
  | bmul64 dst x y => exact view ..

/-- In blocks of one configuration that agree on the reads column of a command whose checks pass, its
effect leaves the same in the writes column. Only `TRNR` needs the checks: with stride 0 the rows of its
view are one block. -/
theorem instrEffect_readBlock_congr {i : Instr} {s₁ s₂ : State} {a : Nat} (hcfg : s₁.cfg = s₂.cfg)
    (hc : instrCause s₁.cfg i = none)
    (h : ∀ b, readsBlock s₁.cfg.width b i → s₁.readBlock b = s₂.readBlock b)
    (ha : writesBlock s₁.cfg.width a i) :
    (instrEffect i s₁).readBlock a = (instrEffect i s₂).readBlock a := by
  cases i with
  | trn base stride =>
    have hrows (k : Nat) (hk : k < s₁.cfg.width.bits) := h _ ⟨k, hk, rfl⟩
    simp only [instrEffect, trnEffect, ← hcfg]
    exact readBlock_writeView_dense_congr _ _ (fun t _ => transposeForward_congr _ hrows t) ha
  | trnd dst src stride =>
    have hrows (k : Nat) (hk : k < s₁.cfg.width.bits) := h _ (.inl ⟨k, hk, rfl⟩)
    have hold := view_congr_dense fun b hb => h b (.inr hb)
    simp only [instrEffect, trndEffect, ← hcfg]
    exact readBlock_writeView_dense_congr _ _
      (fun t ht => congrArg₂ (· ||| ·) (hold t ht) (transposeForward_congr _ hrows t)) ha
  | trnr base stride =>
    have hst := ((trnrCause_eq_none _ base stride).mp hc).1
    have hgroup := view_congr_dense h
    simp only [instrEffect, trnrEffect, ← hcfg]
    exact readBlock_writeView_congr _ _ hst (fun k hk => transposeInverse_congr _ hgroup hk) ha
  | bsl dst src =>
    have hbatch := byteSlice_congr (view_congr_dense h)
    exact readBlock_writeView_dense_congr _ _ (fun b _ => congrFun hbatch b) ha
  | ubsl dst src =>
    have hrows := byteUnslice_congr (view_congr_dense h)
    exact readBlock_writeView_dense_congr _ _ (fun e _ => congrFun hrows e) ha
  | gfmul lhs rhs => exact ha.elim
  | gfmulc rhs => exact ha.elim
  | llkup dst src table =>
    refine readBlock_writeBlock_congr _ _ ?_ ha
    rw [hcfg, h _ rfl]
  | pmul dst x y =>
    refine readBlock_writeBlock_congr _ _ ?_ ha
    rw [hcfg, h _ (.inl rfl), h _ (.inr rfl)]
  | pmulc dst src =>
    refine readBlock_writeBlock_congr _ _ ?_ ha
    rw [hcfg, h _ rfl]
  | bmul64 dst x y =>
    have hx := view_congr_dense fun b hb => h b (.inl hb)
    have hy := view_congr_dense fun b hb => h b (.inr hb)
    refine readBlock_writeView_dense_congr _ _ (fun e he => ?_) ha
    rw [hcfg, hx e he, hy e he]

/-- A running block whose command leaves no fault has had its checks pass and its effect. -/
theorem exec_completed {i : Instr} {s t : State} (hf : s.fault = false) (h : exec i s = .next t)
    (ht : t.fault = false) : instrCause s.cfg i = none ∧ t = instrEffect i s := by
  rcases exec_cases h with ⟨hs, _⟩ | ⟨_, c, _, rfl⟩ | ⟨_, h⟩
  · simp [hf] at hs
  · simp at ht
  · exact h

end Sys2Proof.Machine
end

section
/-! SUPPORT. The order of the host's moves and the commands on one block (20_memory.md R50): a move that
does not write the block leaves it, and so does a run of such moves. -/

namespace Sys2Proof.Machine

/-- The move neither resets nor writes block `a`, by the host or by a command (R35, R44). -/
def HostMove.LeavesBlock (w : WordWidth) (a : Nat) (m : HostMove) : Prop :=
  m ≠ .reset ∧ (∀ v, m ≠ .hwr a v) ∧
    ∀ cw i, m = .issue cw → decode cw = .ok i → ¬ writesBlock w a i

theorem issue_readBlock_of_not_writesBlock {cw : Command} {s t : State} {a : Nat}
    (h : issue cw s = .next t) (ha : ∀ i, decode cw = .ok i → ¬ writesBlock s.cfg.width a i) :
    t.readBlock a = s.readBlock a := by
  rcases issue_cases h with ⟨_, rfl⟩ | ⟨_, _, rfl⟩ | ⟨i, hd, _, ⟨c, _, rfl⟩ | ⟨_, rfl⟩⟩
  · rfl
  · rfl
  · rfl
  · exact instrEffect_readBlock_of_not_writesBlock (ha i hd)

theorem makeMove_readBlock_of_leavesBlock {m : HostMove} {s t : State} {a : Nat}
    (h : makeMove m s = .next t) (ha : m.LeavesBlock s.cfg.width a) :
    t.readBlock a = s.readBlock a := by
  obtain ⟨hreset, hwrite, hissue⟩ := ha
  rcases makeMove_cases h with ⟨cw, rfl, hi⟩ | ⟨b, v, rfl, _, rfl⟩ | ⟨r, _, rfl⟩ | ⟨rfl, _⟩
  · exact issue_readBlock_of_not_writesBlock hi fun i => hissue cw i rfl
  · have hne : b ≠ a := fun hba => hwrite v (hba ▸ rfl)
    rw [readBlock_writeBlock, if_neg hne]
  · rfl
  · exact absurd rfl hreset

/-- A host read that answers a state replies with the block (R35). -/
theorem makeMove_hrd {a : Nat} {s t : State} (h : makeMove (.hrd a) s = .next t) :
    t = s.reply (.block (s.readBlock a)) := by
  simp only [makeMove, hostRead] at h
  split at h
  · exact (Host.Outcome.next.inj h).symm
  · cases h

/-- A host write that answers a state leaves the block with the written value (R35). -/
theorem makeMove_hwr_readBlock {a : Nat} {v : Block} {s t : State}
    (h : makeMove (.hwr a v) s = .next t) : t.readBlock a = v := by
  simp only [makeMove, hostWrite] at h
  split at h
  · cases h
    rw [readBlock_writeBlock, if_pos rfl]
  · cases h

/-- A step that takes a move leaving block `a` keeps the configuration and the block. -/
theorem step_of_leavesBlock {m : HostMove} {rest : List HostMove} {s t : State} {a : Nat}
    (hs : s.moves = m :: rest) (ha : m.LeavesBlock s.cfg.width a) (h : step s = .next t) :
    t.cfg = s.cfg ∧ t.moves = rest ∧ t.readBlock a = s.readBlock a := by
  rw [step_cons hs] at h
  obtain ⟨hcfg, hmoves⟩ := makeMove_keeps_cfg_moves h
  exact ⟨hcfg, hmoves, makeMove_readBlock_of_leavesBlock (s := { s with moves := rest }) h ha⟩

/-- A run whose last move reads block `a`, after moves that leave it, reads what it held at first. -/
theorem core_run_hrd_of_leavesBlock {a : Nat} (ms : List HostMove) {s t : State}
    (hs : s.moves = ms ++ [.hrd a]) (hms : ∀ m ∈ ms, m.LeavesBlock s.cfg.width a)
    (h : Sys2Proof.core.run (ms.length + 1) s = .next t) :
    t.replies.head? = some (.block (s.readBlock a)) ∧ t.readBlock a = s.readBlock a := by
  induction ms generalizing s with
  | nil =>
    obtain ⟨u, hu, hrun⟩ := step_of_core_run h
    rw [step_cons hs] at hu
    cases makeMove_hrd hu
    cases hrun
    exact ⟨rfl, rfl⟩
  | cons m ms ih =>
    obtain ⟨u, hu, hrun⟩ := step_of_core_run h
    obtain ⟨hm, hms⟩ := List.forall_mem_cons.mp hms
    obtain ⟨hcfg, hmoves, hread⟩ := step_of_leavesBlock hs hm hu
    rw [← hread]
    exact ih hmoves (hcfg ▸ hms) hrun

end Sys2Proof.Machine
end

section
/-! PROOFS. The statements about memory of 20_memory.md. -/

namespace Sys2Proof.Proofs.BlockMemory

open Sys2Proof Sys2Proof.Machine

/-- Settles O12: the write puts `v` in the block, and the moves up to the read leave it there. -/
theorem hostReadReturnsTheLatestWrite : Obligations.HostReadReturnsTheLatestWrite := by
  intro ms s t a v _ hs hms h
  obtain ⟨u, hu, hrun⟩ := step_of_core_run h
  rw [step_cons hs] at hu
  obtain ⟨hcfg, hmoves⟩ := makeMove_keeps_cfg_moves hu
  rw [← makeMove_hwr_readBlock hu]
  exact core_run_hrd_of_leavesBlock ms hmoves (hcfg ▸ hms) hrun

/-- Settles O39: the effect of a command against the two columns of R44. -/
theorem commandsReadAndWriteTheirRegionsOnly : Obligations.CommandsReadAndWriteTheirRegionsOnly := by
  refine ⟨fun i s t h a ha => ?frame,
    fun i s₁ s₂ t₁ t₂ hcfg hsres hf₁ hf₂ hreads h₁ h₂ ht => ?dependence,
    fun i s t hf h ht a ha => ?listed⟩
  case frame =>
    rcases exec_cases h with ⟨_, rfl⟩ | ⟨_, c, _, rfl⟩ | ⟨_, _, rfl⟩
    · rfl
    · rfl
    · exact instrEffect_readBlock_of_not_writesBlock ha
  case dependence =>
    obtain ⟨hc, rfl⟩ := exec_completed hf₁ h₁ ht
    cases h₂.symm.trans (exec_completes hf₂ (hcfg ▸ hc))
    exact ⟨instrEffect_sres_congr i hcfg hsres,
      fun a ha => instrEffect_readBlock_congr hcfg hc hreads ha⟩
  case listed =>
    obtain ⟨_, rfl⟩ := exec_completed hf h ht
    exact find?_instrEffect_isSome ha

/-- Settles O42: the numberings of bits, bytes and words rise together (R41). -/
theorem mixedWidthViewsAgree : Obligations.MixedWidthViewsAgree := fun w v =>
  ⟨fun n _ => byteOf_eq_extract_wordOf w v n,
    fun p _ => ⟨(wordOf_getLsbD_div_mod w v p).symm, (byteOf_getLsbD_div_mod v p).symm⟩⟩

end Sys2Proof.Proofs.BlockMemory
end

section
/-! SUPPORT. The command word as a number and its fields as digits (30_encoding.md R60), and the two masks
on an operand field (R61, R62). -/

namespace Sys2Proof

theorem toNat_append_eq_add {m n : Nat} (x : BitVec m) (y : BitVec n) :
    (x ++ y).toNat = x.toNat * 2 ^ n + y.toNat := by
  rw [BitVec.toNat_append, ← Nat.shiftLeft_add_eq_or_of_lt y.isLt, Nat.shiftLeft_eq]

/-- A value meets the mask of the bits at and above `n` in none exactly when it is below `2 ^ n`. -/
theorem and_shiftLeft_allOnes_eq_zero_iff {k : Nat} (x : BitVec k) (n : Nat) :
    x &&& BitVec.allOnes k <<< n = 0 ↔ x.toNat < 2 ^ n := by
  constructor
  · intro h
    refine Nat.lt_pow_two_of_testBit _ fun i hi => ?_
    have hbit := congrArg (BitVec.getLsbD · i) h
    rw [BitVec.testBit_toNat]
    by_cases hk : i < k
    · simpa [hk, Nat.not_lt.mpr hi, show i - n < k by omega] using hbit
    · exact BitVec.getLsbD_of_ge x i (Nat.not_lt.mp hk)
  · intro h
    ext i hi
    by_cases hn : i < n
    · simp [hn]
    · have hx : x.getLsbD i = false := by
        rw [← BitVec.testBit_toNat]
        exact Nat.testBit_lt_two_pow (h.trans_le (Nat.pow_le_pow_right (by decide) (Nat.not_lt.mp hn)))
      simp [← BitVec.getLsbD_eq_getElem, hx]

namespace Cw64

theorem eq_iff {f g : Cw64} :
    f = g ↔ f.op = g.op ∧ f.z = g.z ∧ f.a = g.a ∧ f.b = g.b ∧ f.c = g.c := by
  cases f; cases g; exact mk.injEq .. ▸ Iff.rfl

theorem word_toNat (f : Cw64) : f.word.toNat =
    f.c.toNat * 2 ^ 48 + f.b.toNat * 2 ^ 32 + f.a.toNat * 2 ^ 16 + f.z.toNat * 2 ^ 8 + f.op.toNat := by
  simp only [word, toNat_append_eq_add]
  omega

section Digits

variable (w : Command)

theorem ofWord_op_toNat : (ofWord w).op.toNat = w.toNat % 2 ^ 8 := by simp [ofWord]

theorem ofWord_z_toNat : (ofWord w).z.toNat = w.toNat / 2 ^ 8 % 2 ^ 8 := by
  simp [ofWord, Nat.shiftRight_eq_div_pow]

theorem ofWord_a_toNat : (ofWord w).a.toNat = w.toNat / 2 ^ 16 % 2 ^ 16 := by
  simp [ofWord, Nat.shiftRight_eq_div_pow]

theorem ofWord_b_toNat : (ofWord w).b.toNat = w.toNat / 2 ^ 32 % 2 ^ 16 := by
  simp [ofWord, Nat.shiftRight_eq_div_pow]

theorem ofWord_c_toNat : (ofWord w).c.toNat = w.toNat / 2 ^ 48 := by
  have htop : w.toNat / 2 ^ 48 < 2 ^ 16 := Nat.div_lt_of_lt_mul w.isLt
  simp only [ofWord, BitVec.extractLsb'_toNat, Nat.shiftRight_eq_div_pow, Nat.mod_eq_of_lt htop]

/-- A word is the word of its fields (R60). -/
@[simp] theorem word_ofWord : (ofWord w).word = w := by
  apply BitVec.eq_of_toNat_eq
  rw [word_toNat, ofWord_op_toNat, ofWord_z_toNat, ofWord_a_toNat, ofWord_b_toNat, ofWord_c_toNat]
  omega

end Digits

/-- Two words are equal when their fields are. -/
theorem ofWord_inj {v w : Command} : ofWord v = ofWord w ↔ v = w :=
  (Function.LeftInverse.injective word_ofWord).eq_iff

/-- `AND` of two words is `AND` field by field. -/
theorem ofWord_and (v w : Command) : ofWord (v &&& w) =
    { op := (ofWord v).op &&& (ofWord w).op, z := (ofWord v).z &&& (ofWord w).z,
      a := (ofWord v).a &&& (ofWord w).a, b := (ofWord v).b &&& (ofWord w).b,
      c := (ofWord v).c &&& (ofWord w).c } := by
  simp only [ofWord, BitVec.extractLsb'_and]

end Cw64

/-! ### The checks of an operand field -/

theorem isByte_iff (f : Field) : isByte f = true ↔ f.toNat < 256 := by
  have hhigh : (f.extractLsb' 8 8).toNat = f.toNat / 256 % 256 := by
    rw [BitVec.extractLsb'_toNat, Nat.shiftRight_eq_div_pow]
  rw [isByte, decide_eq_true_eq, ← BitVec.toNat_inj, hhigh, BitVec.ofNat_eq_ofNat, BitVec.toNat_zero]
  omega

/-- A byte immediate field is legal exactly when it is its low byte (R61). -/
@[simp] theorem eq_setWidth_byteImmediate_iff (f : Field) :
    f = (byteImmediate f).setWidth 16 ↔ isByte f = true := by
  rw [isByte_iff, ← BitVec.toNat_inj]
  simp only [byteImmediate, BitVec.toNat_setWidth, BitVec.extractLsb'_toNat, Nat.shiftRight_zero]
  omega

theorem field_of_tableSelect {c : Field} {t : TableSel} (h : tableSelect c = some t) : c = t.field := by
  unfold tableSelect at h
  split at h <;> cases h
  all_goals
    next hc => exact BitVec.eq_of_toNat_eq hc

/-- A field selects no table exactly when it is 3 or more (R61). -/
theorem tableSelect_eq_none_iff (c : Field) : tableSelect c = none ↔ 3 ≤ c.toNat := by
  unfold tableSelect
  split
  · simp [*]
  · simp [*]
  · simp [*]
  · next h0 h1 h2 => exact iff_of_true rfl (by grind)

end Sys2Proof
end

section
/-! SUPPORT. The decoder against the encoder (30_encoding.md R62, R63): the fields of a legal word are those
of its command. -/

namespace Sys2Proof

theorem eq_encode_iff {w : Command} {i : Instr} : w = encode i ↔ Cw64.ofWord w = encodeFields i := by
  rw [← Cw64.ofWord_inj, encode, Cw64.ofWord_word]

/-- A check of the decoder that a legal word has passed. -/
theorem check_eq_ok_iff {p : Prop} [Decidable p] {r : Except Illegal Instr} {e : Illegal} {i : Instr} :
    (if p then r else .error e) = .ok i ↔ p ∧ r = .ok i := by
  split <;> simp [*]

/-- A check of the decoder refuses when it fails or the rest does. -/
theorem exists_check_eq_error_iff {p : Prop} [Decidable p] {r : Except Illegal Instr} {e : Illegal} :
    (∃ e', (if p then r else .error e) = .error e') ↔ ¬ p ∨ ∃ e', r = .error e' := by
  split <;> simp [*]

/-- A command the decoder reads has the fields it was read from: the rows of R62 in the decoder's order,
then the opcodes of no row. -/
theorem eq_encodeFields_of_decodeFields {f : Cw64} {i : Instr} (hz : f.z = 0)
    (h : decodeFields f = .ok i) : f = encodeFields i := by
  have hfields (hop : f.op.toNat = (encodeFields i).op.toNat)
      (ha : f.a = (encodeFields i).a) (hb : f.b = (encodeFields i).b) (hc : f.c = (encodeFields i).c) :
      f = encodeFields i :=
    Cw64.eq_iff.mpr ⟨BitVec.eq_of_toNat_eq hop, hz.trans (encodeFields_z i).symm, ha, hb, hc⟩
  unfold decodeFields at h
  split at h
  next hop =>
    obtain ⟨hb, ⟨⟩⟩ := check_eq_ok_iff.mp h
    exact hfields hop rfl hb rfl
  next hop =>
    cases h
    exact hfields hop rfl rfl rfl
  next hop =>
    obtain ⟨hb, ⟨⟩⟩ := check_eq_ok_iff.mp h
    exact hfields hop rfl hb rfl
  next hop =>
    obtain ⟨hc, ⟨⟩⟩ := check_eq_ok_iff.mp h
    exact hfields hop rfl rfl hc
  next hop =>
    obtain ⟨hc, ⟨⟩⟩ := check_eq_ok_iff.mp h
    exact hfields hop rfl rfl hc
  next hop =>
    obtain ⟨ha, h⟩ := check_eq_ok_iff.mp h
    obtain ⟨hbytes, ⟨⟩⟩ := check_eq_ok_iff.mp h
    obtain ⟨hb, hc⟩ := Bool.and_eq_true_iff.mp hbytes
    exact hfields hop ha ((eq_setWidth_byteImmediate_iff _).mpr hb)
      ((eq_setWidth_byteImmediate_iff _).mpr hc)
  next hop =>
    obtain ⟨⟨ha, hc⟩, h⟩ := check_eq_ok_iff.mp h
    obtain ⟨hb, ⟨⟩⟩ := check_eq_ok_iff.mp h
    exact hfields hop ha ((eq_setWidth_byteImmediate_iff _).mpr hb) hc
  next hop =>
    split at h
    next t ht =>
      cases h
      exact hfields hop rfl rfl (field_of_tableSelect ht)
    next => cases h
  next hop =>
    cases h
    exact hfields hop rfl rfl rfl
  next hop =>
    obtain ⟨hc, ⟨⟩⟩ := check_eq_ok_iff.mp h
    exact hfields hop rfl rfl hc
  next hop =>
    cases h
    exact hfields hop rfl rfl rfl
  next => cases h

/-- A legal word is the one encoding of its command (R62). -/
theorem eq_encode_of_decode {w : Command} {i : Instr} (h : decode w = .ok i) : w = encode i := by
  obtain ⟨hz, h⟩ := check_eq_ok_iff.mp h
  exact eq_encode_iff.mpr (eq_encodeFields_of_decodeFields hz h)

end Sys2Proof
end

section
/-! SUPPORT. The opcode map (30_encoding.md R62): a row's match and mask read field by field, and the row
of each command. -/

namespace Sys2Proof

/-! ### The masks of an operand field -/

@[simp] theorem byte_and_mask (x : Byte) : x &&& 255#8 = x := BitVec.and_allOnes

@[simp] theorem field_and_mask (x : Field) : x &&& 65535#16 = x := BitVec.and_allOnes

/-- The mask 0xFF00 of a byte immediate (R62). -/
@[simp] theorem and_byteMask_eq_zero_iff (x : Field) : x &&& 65280#16 = 0#16 ↔ isByte x = true :=
  (and_shiftLeft_allOnes_eq_zero_iff x 8).trans (isByte_iff x).symm

/-- The mask 0xFFFC of a table select and the one select that no mask excludes (R62). -/
theorem meets_selectMask_iff (x : Field) :
    x &&& 65532#16 = 0#16 ∧ x.extractLsb' 0 2 ≠ 3#2 ↔ ∃ t, tableSelect x = some t := by
  have hhigh : x &&& 65532#16 = 0#16 ↔ x.toNat < 4 := and_shiftLeft_allOnes_eq_zero_iff x 2
  have hlow : x.extractLsb' 0 2 = 3#2 ↔ x.toNat % 4 = 3 := by
    rw [← BitVec.toNat_inj, BitVec.extractLsb'_toNat]
    exact Iff.rfl
  rw [← Option.ne_none_iff_exists', ne_eq, ne_eq, tableSelect_eq_none_iff, hhigh, hlow]
  omega

/-- A word meets a row when its fields meet the fields of the row's match and mask. -/
theorem OpcodeRow.matchesWord_iff (r : OpcodeRow) (w : Command) : r.matchesWord w = true ↔
    (Cw64.ofWord w).op &&& (Cw64.ofWord r.mask).op = (Cw64.ofWord r.pattern).op ∧
      (Cw64.ofWord w).z &&& (Cw64.ofWord r.mask).z = (Cw64.ofWord r.pattern).z ∧
      (Cw64.ofWord w).a &&& (Cw64.ofWord r.mask).a = (Cw64.ofWord r.pattern).a ∧
      (Cw64.ofWord w).b &&& (Cw64.ofWord r.mask).b = (Cw64.ofWord r.pattern).b ∧
      (Cw64.ofWord w).c &&& (Cw64.ofWord r.mask).c = (Cw64.ofWord r.pattern).c ∧
      (r.mnemonic = "LLKUP" → (Cw64.ofWord w).c.extractLsb' 0 2 ≠ 3) := by
  have hselect : w.extractLsb' 48 2 = (Cw64.ofWord w).c.extractLsb' 0 2 := by
    ext j hj
    simp [Cw64.ofWord, show j < 16 by omega]
  simp only [matchesWord, Bool.and_eq_true, decide_eq_true_eq, Bool.or_eq_true, bne_iff_ne, hselect]
  rw [← Cw64.ofWord_inj, Cw64.ofWord_and, Cw64.eq_iff]
  simp only [and_assoc, imp_iff_not_or, ne_eq]

/-- The word of a command meets the row of its mnemonic (R62). -/
theorem exists_row_encode (i : Instr) :
    ∃ r ∈ opcodeTable, r.mnemonic = i.mnemonic ∧ r.matchesWord (encode i) = true := by
  simp only [OpcodeRow.matchesWord_iff, encode, Cw64.ofWord_word]
  cases i
  case llkup dst src table =>
    have hselect := (meets_selectMask_iff table.field).mpr ⟨table, tableSelect_field table⟩
    simpa [opcodeTable, Instr.mnemonic, encodeFields, Cw64.ofWord] using hselect
  all_goals simp [opcodeTable, Instr.mnemonic, encodeFields, Cw64.ofWord]

/-- A word that meets a row is the word of a command of the row's mnemonic (R62). -/
theorem exists_eq_encode_of_matchesWord {r : OpcodeRow} (hr : r ∈ opcodeTable) {w : Command}
    (h : r.matchesWord w = true) : ∃ i, w = encode i ∧ i.mnemonic = r.mnemonic := by
  simp only [eq_encode_iff]
  rw [OpcodeRow.matchesWord_iff] at h
  generalize Cw64.ofWord w = f at h
  simp only [opcodeTable, List.mem_cons, List.not_mem_nil, or_false] at hr
  rcases hr with rfl | rfl | rfl | rfl | rfl | rfl | rfl | rfl | rfl | rfl | rfl
  · exact ⟨.trn f.a f.c, by simpa [Cw64.eq_iff, encodeFields, Cw64.ofWord] using h, rfl⟩
  · exact ⟨.trnd f.a f.b f.c, by simpa [Cw64.eq_iff, encodeFields, Cw64.ofWord] using h, rfl⟩
  · exact ⟨.trnr f.a f.c, by simpa [Cw64.eq_iff, encodeFields, Cw64.ofWord] using h, rfl⟩
  · exact ⟨.bsl f.a f.b, by simpa [Cw64.eq_iff, encodeFields, Cw64.ofWord] using h, rfl⟩
  · exact ⟨.ubsl f.a f.b, by simpa [Cw64.eq_iff, encodeFields, Cw64.ofWord] using h, rfl⟩
  · exact ⟨.gfmul (byteImmediate f.b) (byteImmediate f.c), by
      simpa [Cw64.eq_iff, encodeFields, Cw64.ofWord] using h, rfl⟩
  · exact ⟨.gfmulc (byteImmediate f.b), by
      simpa [Cw64.eq_iff, encodeFields, Cw64.ofWord] using h, rfl⟩
  · have hf : f.op = 24#8 ∧ f.z = 0#8 ∧ f.c &&& 65532#16 = 0#16 ∧ f.c.extractLsb' 0 2 ≠ 3#2 := by
      simpa [Cw64.ofWord] using h
    obtain ⟨hop, hz, hselect⟩ := hf
    obtain ⟨t, ht⟩ := (meets_selectMask_iff f.c).mp hselect
    exact ⟨.llkup f.a f.b t, Cw64.eq_iff.mpr ⟨hop, hz, rfl, rfl, field_of_tableSelect ht⟩, rfl⟩
  · exact ⟨.pmul f.a f.b f.c, by simpa [Cw64.eq_iff, encodeFields, Cw64.ofWord] using h, rfl⟩
  · exact ⟨.pmulc f.a f.b, by simpa [Cw64.eq_iff, encodeFields, Cw64.ofWord] using h, rfl⟩
  · exact ⟨.bmul64 f.a f.b f.c, by simpa [Cw64.eq_iff, encodeFields, Cw64.ofWord] using h, rfl⟩

theorem opcodeTable_op_mask : ∀ r ∈ opcodeTable, (Cw64.ofWord r.mask).op = 255 := by decide

theorem opcodeTable_op_nodup : (opcodeTable.map fun r => (Cw64.ofWord r.pattern).op).Nodup := by decide

/-- No word meets two rows: every mask covers `OP`, and no two rows have one value of `OP` (R62). -/
theorem row_eq_of_matchesWord {w : Command} {r q : OpcodeRow} (hr : r ∈ opcodeTable)
    (hq : q ∈ opcodeTable) (hrw : r.matchesWord w = true) (hqw : q.matchesWord w = true) : r = q := by
  obtain ⟨hrop, -⟩ := (r.matchesWord_iff w).mp hrw
  obtain ⟨hqop, -⟩ := (q.matchesWord_iff w).mp hqw
  rw [opcodeTable_op_mask r hr] at hrop
  rw [opcodeTable_op_mask q hq] at hqop
  exact List.inj_on_of_nodup_map opcodeTable_op_nodup hr hq (hrop.symm.trans hqop)

end Sys2Proof
end

section
/-! SUPPORT. What the sequencer does with an illegal word (30_encoding.md R63, R64). -/

namespace Sys2Proof.Machine

/-- What `ISSUE` of an illegal word does (R63, R64). -/
theorem issue_illegal {cw : Command} {e : Illegal} (h : decode cw = .error e) (s : State) :
    issue cw s = .next (if s.fault then s else s.raiseFault .illegalCommand cw) := by
  rw [issue_error h]
  split
  next hf => exact command_halted hf ..
  next hf => exact command_faults (Bool.eq_false_iff.mpr hf) ..

end Sys2Proof.Machine
end

section
/-! PROOFS. The statements about the command word, the decoder and the encoder of 30_encoding.md. -/

namespace Sys2Proof.Proofs.Encoding

open Sys2Proof Sys2Proof.Machine

/-- Settles O3: the fields of a command are legal and name it, and its word has these fields. -/
theorem decodeOfEncodeIsTheCommand : Obligations.DecodeOfEncodeIsTheCommand := decode_encode

/-- Settles O4: the fields a command is read from are those of its encoding. -/
theorem encodeOfDecodeIsTheWord : Obligations.EncodeOfDecodeIsTheWord :=
  fun _ _ h => (eq_encode_of_decode h).symm

/-- Settles O1: the fields are the word's digits, so their weighted sum is the word. -/
theorem commandWordIsTheWeightedSumOfItsFields : Obligations.CommandWordIsTheWeightedSumOfItsFields :=
  ⟨Cw64.word_toNat, fun w => ⟨Cw64.word_ofWord w, Cw64.ofWord_op_toNat w, Cw64.ofWord_z_toNat w,
    Cw64.ofWord_a_toNat w, Cw64.ofWord_b_toNat w, Cw64.ofWord_c_toNat w⟩⟩

/-- Settles O5: the words that meet a row are the encodings of the row's commands. -/
theorem decoderAgreesWithTheOpcodeTable : Obligations.DecoderAgreesWithTheOpcodeTable := by
  refine ⟨fun w m => ⟨?row, ?command⟩, fun w r hr q hq => row_eq_of_matchesWord hr hq⟩
  case row =>
    rintro ⟨i, hd, rfl⟩
    rw [eq_encode_of_decode hd]
    exact exists_row_encode i
  case command =>
    rintro ⟨r, hr, rfl, hw⟩
    obtain ⟨i, rfl, hi⟩ := exists_eq_encode_of_matchesWord hr hw
    exact ⟨i, decode_encode i, hi⟩

/-- Settles O6: the checks the decoder makes for each opcode, against R63's cases. -/
theorem illegalWordsAreExactlyThoseOfTheFiveCases :
    Obligations.IllegalWordsAreExactlyThoseOfTheFiveCases := by
  refine ⟨fun w => ?cases, fun w s ⟨e, he⟩ hf => ?raises⟩
  case cases =>
    rw [decode]
    generalize Cw64.ofWord w = f
    have hbyte (x : Field) : x.toNat / 256 ≠ 0 ↔ ¬ isByte x = true := by
      rw [isByte_iff]
      omega
    have hselect : f.c.toNat / 4 ≠ 0 ∨ f.c.toNat % 4 = 3 ↔ tableSelect f.c = none := by
      rw [tableSelect_eq_none_iff]
      omega
    rw [exists_check_eq_error_iff, hbyte, hbyte, hselect, decodeFields]
    split
    -- `LLKUP`, where the check is the table select
    case h_8 hop => cases tableSelect f.c <;> simp [hop]
    -- no opcode of the table
    case h_12 => exact iff_of_true (.inr ⟨_, rfl⟩) (by grind)
    -- the other ten, whose checks are those of their fields
    all_goals next hop => simp [hop, exists_check_eq_error_iff, not_and_or, -not_and]
  case raises =>
    rw [issue_illegal he, hf]
    rfl

/-- Settles O2, by running the decoder on the eleven words. -/
theorem workedEncodingsDecodeToTheirCommands : Obligations.WorkedEncodingsDecodeToTheirCommands := by
  unfold Obligations.WorkedEncodingsDecodeToTheirCommands
  decide

/-- Settles O7: `step` makes the first waiting move, which is to issue the word. -/
theorem stepRunsTheDecodedCommand : Obligations.StepRunsTheDecodedCommand :=
  ⟨fun _ _ _ _ hs hd => (step_cons hs).trans (issue_ok hd _),
    fun _ _ _ _ hs hd => (step_cons hs).trans (issue_illegal hd _),
    fun s nbits w => step_cons (s := s.withFetchWord nbits w) rfl, fun _ => step_idle⟩

end Sys2Proof.Proofs.Encoding
end

section
/-! SUPPORT. The two transpose functions undo each other (40_bit_transpose.md R82, R84), and the forward one
does not undo itself (R90). -/

namespace Sys2Proof.Machine

/-- Bit `q` of block `t` of the dense group is bit `q mod W` of word `q div W` of that block, which is
word `t * WPB + q div W` of the group (R83). -/
theorem word_of_block_bit (w : WordWidth) (t : Nat) {q : Nat} (hq : q < 128) :
    (t * w.wordsPerBlock + q / w.bits) / w.wordsPerBlock = t ∧
      (t * w.wordsPerBlock + q / w.bits) % w.wordsPerBlock = q / w.bits := by
  have hword : q / w.bits < w.wordsPerBlock :=
    Nat.div_lt_of_lt_mul (bits_mul_wordsPerBlock w ▸ hq)
  rw [Nat.mul_comm t, Nat.mul_add_div (wordsPerBlock_pos w), Nat.div_eq_of_lt hword, Nat.mul_add_mod,
    Nat.mod_eq_of_lt hword]
  exact ⟨Nat.add_zero t, rfl⟩

/-- Word `p` of the dense group is one of 128 when its block is one of `W`. -/
theorem word_lt_of_block_lt (w : WordWidth) {p : Nat} (h : p / w.wordsPerBlock < w.bits) : p < 128 :=
  bits_mul_wordsPerBlock w ▸ (Nat.div_lt_iff_lt_mul (wordsPerBlock_pos w)).mp h

/-- `TRI(TRF(R)) = R` (R84). -/
theorem transposeInverse_transposeForward (w : WordWidth) (R : Nat → Block) {k : Nat}
    (hk : k < w.bits) : transposeInverse w (transposeForward w R) k = R k := by
  apply BitVec.eq_of_getLsbD_eq
  intro p hp
  rw [transposeInverse_bit w _ hp hk, transposeForward_bit w R hk]

/-- Block `t` of the dense group bit by bit (R83): `D[t][m * W + k] = R[k][t * WPB + m]`. -/
theorem transposeForward_getLsbD (w : WordWidth) (R : Nat → Block) (t q : Nat) :
    (transposeForward w R t).getLsbD q =
      (decide (q < 128) && (R (q % w.bits)).getLsbD (t * w.wordsPerBlock + q / w.bits)) :=
  bitsOf_getLsbD ..

/-- `TRF(TRI(T)) = T` (R84). -/
theorem transposeForward_transposeInverse (w : WordWidth) (D : Nat → Block) {t : Nat}
    (ht : t < w.bits) : transposeForward w (transposeInverse w D) t = D t := by
  apply BitVec.eq_of_getLsbD_eq
  intro q hq
  obtain ⟨hblock, hplace⟩ := word_of_block_bit w t hq
  have hp : t * w.wordsPerBlock + q / w.bits < 128 := word_lt_of_block_lt w (hblock.symm ▸ ht)
  rw [transposeForward_getLsbD, decide_eq_true hq, Bool.true_and,
    transposeInverse_bit w D hp (Nat.mod_lt q (bits_pos w)), hblock, hplace, wordOf_getLsbD_div_mod]

/-- The document's output position `(i << LOG2W) + j` is the bit position of bit `j` of lane `i` (R83). -/
theorem shiftLeft_logBits_add (w : WordWidth) (i j : Nat) : i <<< w.logBits + j = w.bits * i + j := by
  rw [Nat.shiftLeft_eq, two_pow_logBits, Nat.mul_comm]

/-- Bit 1 of block 0 of a transform is bit 0 of row 1; when the rows are a transform themselves, that is bit
`WPB` of row 0 of their own rows. -/
theorem transposeForward_twice_bit_one (w : WordWidth) (R : Nat → Block) :
    (transposeForward w (transposeForward w R) 0).getLsbD 1 = (R 0).getLsbD w.wordsPerBlock := by
  have hw : 1 < w.bits := by cases w <;> decide
  rw [transposeForward_getLsbD, transposeForward_getLsbD]
  simp [Nat.div_eq_of_lt hw, Nat.mod_eq_of_lt hw]

end Sys2Proof.Machine
end

section
/-! SUPPORT. What the blocks read after the effect of a transpose command (40_bit_transpose.md R85 to R87),
and what a command that leaves no fault has done. -/

namespace Sys2Proof.Machine

theorem field_toNat_ne_zero {f : Field} (h : f ≠ 0) : f.toNat ≠ 0 :=
  fun h0 => h (BitVec.eq_of_toNat_eq h0)

/-- The dense group at `f` read block by block (20_memory.md R55). -/
theorem view_dense (s : State) (f k : Nat) : s.view f 1 k = s.readBlock (f + k) := by
  rw [State.view, viewAddr, Nat.mul_one]

theorem readBlock_writeView_dense (s : State) (f : Nat) (v : Nat → Block) {n k : Nat} (hk : k < n) :
    (s.writeView f 1 v n).readBlock (f + k) = v k := by
  rw [← view_dense]
  exact readBlock_writeView s f Nat.one_ne_zero v hk

section Effects

variable (s : State) (base dst src : Field)

theorem readBlock_trnEffect (stride : Field) {t : Nat} (ht : t < s.cfg.width.bits) :
    (trnEffect base stride s).readBlock (base.toNat + t) =
      transposeForward s.cfg.width (s.view base.toNat stride.toNat) t :=
  readBlock_writeView_dense s base.toNat _ ht

theorem readBlock_trndEffect (stride : Field) {t : Nat} (ht : t < s.cfg.width.bits) :
    (trndEffect dst src stride s).readBlock (dst.toNat + t) =
      s.readBlock (dst.toNat + t) |||
        transposeForward s.cfg.width (s.view src.toNat stride.toNat) t := by
  rw [← view_dense s]
  exact readBlock_writeView_dense s dst.toNat _ ht

theorem readBlock_trnrEffect {stride : Field} (hst : stride.toNat ≠ 0) {k : Nat}
    (hk : k < s.cfg.width.bits) :
    (trnrEffect base stride s).readBlock (base.toNat + k * stride.toNat) =
      transposeInverse s.cfg.width (s.view base.toNat 1) k :=
  readBlock_writeView s base.toNat hst _ hk

end Effects

/-- `TRND` leaves the rows of its source, which its checks keep clear of the destination (R86). -/
theorem view_src_trndEffect {s : State} {dst src stride : Field}
    (hc : trndCause s.cfg dst src stride = none) {k : Nat} (hk : k < s.cfg.width.bits) :
    (trndEffect dst src stride s).view src.toNat stride.toNat k =
      s.view src.toNat stride.toNat k := by
  obtain ⟨_, _, hclear⟩ := (trndCause_eq_none _ dst src stride).mp hc
  have hend := viewAddr_lt_span_end s.cfg.width src.toNat stride.toNat hk
  have hbase : src.toNat ≤ viewAddr src.toNat stride.toNat k := Nat.le_add_right _ _
  refine instrEffect_readBlock_of_not_writesBlock (i := .trnd dst src stride) ?_
  rintro ⟨hlo, hhi⟩
  omega

/-- The same `TRND` again ORs the same transpose into a group that holds it (R86 (d)). -/
theorem readBlock_trndEffect_twice {s : State} {dst src stride : Field}
    (hc : trndCause s.cfg dst src stride = none) (a : Nat) :
    (trndEffect dst src stride (trndEffect dst src stride s)).readBlock a =
      (trndEffect dst src stride s).readBlock a := by
  have hcfg : (trndEffect dst src stride s).cfg = s.cfg := writeView_cfg ..
  by_cases ha : writesBlock s.cfg.width a (.trnd dst src stride)
  · obtain ⟨t, rfl⟩ := Nat.exists_eq_add_of_le ha.1
    have ht : t < s.cfg.width.bits := Nat.lt_of_add_lt_add_left ha.2
    rw [readBlock_trndEffect _ dst src stride (hcfg.symm ▸ ht), hcfg,
      transposeForward_congr _ fun k hk => view_src_trndEffect hc hk,
      readBlock_trndEffect s dst src stride ht, BitVec.or_assoc, BitVec.or_self]
  · exact instrEffect_readBlock_of_not_writesBlock (i := .trnd dst src stride) (hcfg.symm ▸ ha)

/-- A command after which the block runs was issued to a running block, and has had its effect. -/
theorem exec_completed_of_running {i : Instr} {s t : State} (h : exec i s = .next t)
    (ht : t.fault = false) : instrCause s.cfg i = none ∧ t = instrEffect i s := by
  rcases exec_cases h with ⟨hs, rfl⟩ | ⟨hs, _⟩ | ⟨hs, _⟩
  · simp [hs] at ht
  · exact exec_completed hs h ht
  · exact exec_completed hs h ht

/-- R64 answers a next state in each of its cases. -/
theorem command_answers (cw : Command) (c : Option Cause) (e : State → State) (s : State) :
    ∃ t, command cw c e s = .next t := by
  cases hf : s.fault with
  | true => exact ⟨_, command_halted hf cw c e⟩
  | false =>
    cases c with
    | some x => exact ⟨_, command_faults hf cw x e⟩
    | none => exact ⟨_, command_completes hf cw e⟩

end Sys2Proof.Machine
end

section
/-! PROOFS. The statements about the transpose of 40_bit_transpose.md. -/

namespace Sys2Proof.Proofs.BitTranspose

open Sys2Proof Sys2Proof.Machine

/-- Settles O25: the checks of R85 pass, and the effect writes `TRF` of the view over the dense group. -/
theorem trnLeavesTheForwardTranspose : Obligations.TrnLeavesTheForwardTranspose := by
  intro s base stride hf hst hspan
  have hc := (trnCause_eq_none s.cfg base stride).mpr ⟨field_toNat_ne_zero hst, hspan⟩
  refine ⟨_, exec_completes hf hc, writeView_eq .., fun p hp k hk => ?group, fun a ha => ?frame⟩
  case group =>
    rw [instrEffect, readBlock_trnEffect s base stride (block_of_word_lt _ hp),
      transposeForward_bit _ _ hk]
    rfl
  case frame => exact instrEffect_readBlock_of_not_writesBlock ha

/-- Settles O26: the checks of R86 pass, and the effect ORs `TRF` of the view into the dense group. -/
theorem trndOrsTheForwardTransposeIntoTheDestination :
    Obligations.TrndOrsTheForwardTransposeIntoTheDestination := by
  intro s dst src stride hf hst hspan hdst hclear
  have hc := (trndCause_eq_none s.cfg dst src stride).mpr
    ⟨field_toNat_ne_zero hst, ⟨hspan, hdst⟩, by omega⟩
  refine ⟨_, exec_completes hf hc, writeView_eq .., fun p hp k hk => ?group, fun a ha => ?frame⟩
  case group =>
    rw [instrEffect, readBlock_trndEffect s dst src stride (block_of_word_lt _ hp), wordOf,
      BitVec.extractLsb'_or, BitVec.getLsbD_or]
    exact congrArg _ (transposeForward_bit _ _ hk)
  case frame => exact instrEffect_readBlock_of_not_writesBlock ha

/-- Settles O27: the checks of R87 pass, and the effect writes `TRI` of the dense group over the rows. -/
theorem trnrLeavesTheInverseTranspose : Obligations.TrnrLeavesTheInverseTranspose := by
  intro s base stride hf hst hspan
  have hst := field_toNat_ne_zero hst
  have hc := (trnrCause_eq_none s.cfg base stride).mpr ⟨hst, hspan⟩
  refine ⟨_, exec_completes hf hc, writeView_eq .., fun p hp k hk => ?rows, fun a ha => ?frame⟩
  case rows =>
    rw [instrEffect, readBlock_trnrEffect s base hst hk, transposeInverse_bit _ _ hp hk, view_dense]
  case frame => exact instrEffect_readBlock_of_not_writesBlock fun ⟨k, hk, h⟩ => ha k hk h

/-- Settles O44: R82's position is R83's, and `TRI` is a two-sided inverse. -/
theorem forwardTransposeFormula : Obligations.ForwardTransposeFormula := by
  intro w
  refine ⟨fun R i j k _ hj hk => ?formula, fun R R' h k hk => ?injective,
    fun D => ⟨transposeInverse w D, fun t => transposeForward_transposeInverse w D⟩⟩
  case formula =>
    rw [transposeForward_bit w R hk, shiftLeft_logBits_add, wordOf_getLsbD, decide_eq_true hj,
      Bool.true_and]
  case injective =>
    rw [← transposeInverse_transposeForward w R hk, transposeInverse_congr w h hk,
      transposeInverse_transposeForward w R' hk]

/-- Settles O45: every dense group is the transform of its inverse, where a function that undoes `TRF` has
no choice. -/
theorem inverseTransposeIsTheExactInverse : Obligations.InverseTransposeIsTheExactInverse := by
  intro w
  refine ⟨fun D p k => transposeInverse_bit w D, fun R k => transposeInverse_transposeForward w R,
    fun D t => transposeForward_transposeInverse w D, fun G hcongr hundo D k hk => ?unique⟩
  case unique =>
    calc G D k
        = G (transposeForward w (transposeInverse w D)) k :=
          hcongr _ _ (fun t ht => (transposeForward_transposeInverse w D ht).symm) k hk
      _ = transposeInverse w D k := hundo _ k hk

/-- Settles O47: the second command reads what the first has written, since both the group and the view
lie in the span, and applies the inverse function to it. -/
theorem transposeRoundTripRestoresTheView : Obligations.TransposeRoundTripRestoresTheView := by
  refine ⟨fun s s₁ s₂ s₃ base stride h₁ hf₁ hcfg hspan h₂ hf₃ => ?viewRestored,
    fun s s₁ s₂ s₃ base stride h₁ hf₁ hcfg hspan h₂ hf₃ a hlo hhi => ?groupRestored⟩
  case viewRestored =>
    obtain ⟨hc, rfl⟩ := exec_completed_of_running h₁ hf₁
    obtain ⟨_, rfl⟩ := exec_completed_of_running h₂ hf₃
    rw [instrEffect_cfg] at hcfg
    have hst := ((trnCause_eq_none _ base stride).mp hc).1
    have hsize := bits_le_span_size s.cfg.width hst
    have hgroup : ∀ t < s.cfg.width.bits, s₂.view base.toNat 1 t =
        transposeForward s.cfg.width (s.view base.toNat stride.toNat) t := fun t ht => by
      rw [view_dense, hspan _ (by omega) (by omega)]
      exact readBlock_trnEffect s base stride ht
    refine ⟨fun k hk => ?row, fun a hlo hhi hrow => ?between⟩
    case row =>
      rw [instrEffect, readBlock_trnrEffect s₂ base hst (hcfg.symm ▸ hk), hcfg,
        transposeInverse_congr _ hgroup hk, transposeInverse_transposeForward _ _ hk]
      rfl
    case between =>
      rw [← hspan a hlo (by omega)]
      refine instrEffect_readBlock_of_not_writesBlock (i := .trnr base stride) fun ⟨k, hk, h⟩ => ?_
      exact hrow k (hcfg ▸ hk) h
  case groupRestored =>
    obtain ⟨hc, rfl⟩ := exec_completed_of_running h₁ hf₁
    obtain ⟨_, rfl⟩ := exec_completed_of_running h₂ hf₃
    rw [instrEffect_cfg] at hcfg
    have hst := ((trnrCause_eq_none _ base stride).mp hc).1
    have hview : ∀ k < s.cfg.width.bits, s₂.view base.toNat stride.toNat k =
        transposeInverse s.cfg.width (s.view base.toNat 1) k := fun k hk =>
      (hspan _ (Nat.le_add_right _ _) (viewAddr_lt_span_end _ _ _ hk)).trans
        (readBlock_trnrEffect s base hst hk)
    obtain ⟨t, rfl⟩ := Nat.exists_eq_add_of_le hlo
    have ht : t < s.cfg.width.bits := Nat.lt_of_add_lt_add_left hhi
    rw [instrEffect, readBlock_trnEffect s₂ base stride (hcfg.symm ▸ ht), hcfg,
      transposeForward_congr _ hview, transposeForward_transposeInverse _ _ ht, view_dense]

/-- Settles O48: OR with zero, and OR with what is already there. -/
theorem trndOnCleanAndOnRepeatedDestination : Obligations.TrndOnCleanAndOnRepeatedDestination := by
  refine ⟨fun s t u dst src stride hf hzero ht hft hu k hk => ?clean,
    fun s t u dst src stride ht hu => ?repeated⟩
  case clean =>
    obtain ⟨hc, rfl⟩ := exec_completed hf ht hft
    obtain ⟨hst, ⟨hspan, _⟩, _⟩ := (trndCause_eq_none _ dst src stride).mp hc
    have hctrn := (trnCause_eq_none _ src stride).mpr ⟨hst, hspan⟩
    cases hu.symm.trans (exec_completes hf hctrn)
    rw [instrEffect, instrEffect, readBlock_trndEffect s dst src stride hk,
      readBlock_trnEffect s src stride hk, hzero k hk]
    exact BitVec.zero_or
  case repeated =>
    rcases exec_cases ht with ⟨hf, rfl⟩ | ⟨_, c, _, rfl⟩ | ⟨hf, hc, rfl⟩
    · rw [exec_eq, command_halted hf] at hu
      cases hu
      exact ⟨rfl, fun _ => rfl⟩
    · rw [exec_eq, command_halted (raiseFault_fault ..)] at hu
      cases hu
      exact ⟨rfl, fun _ => rfl⟩
    · rw [exec_completes ((instrEffect_fault ..).trans hf) ((instrEffect_cfg ..).symm ▸ hc)] at hu
      cases hu
      exact ⟨writeView_eq .., readBlock_trndEffect_twice hc⟩

/-- Settles O21: ignored, faulted or completed, by the cases of R64. -/
theorem everyCommandAnswersANextState : Obligations.EveryCommandAnswersANextState := by
  intro i s
  rw [exec_eq]
  exact command_answers ..

/-- Settles O46: rows that have bit 1 alone; transposed twice, row 0 has at bit 1 what it had at bit
`WPB`. -/
theorem forwardTransposeIsNotItsOwnInverse : Obligations.ForwardTransposeIsNotItsOwnInverse := by
  intro w
  refine ⟨fun _ => 2, 0, bits_pos w, fun h => ?_⟩
  have hbit := transposeForward_twice_bit_one w fun _ => 2
  rw [h] at hbit
  cases w <;> exact absurd hbit (by decide)

end Sys2Proof.Proofs.BitTranspose
end

section
/-! SUPPORT. The byte-slice function and its two commands (41_byte_slice.md R100 to R103): each byte of a
row, the function undoes itself, and what the blocks read after the effect of a slice. -/

namespace Sys2Proof.Machine

/-- Lane `e` of row `b` is byte `b` of element `e` (R100). -/
theorem byteOf_byteSlice (E : Nat → Block) (b : Nat) {e : Nat} (he : e < 16) :
    byteOf (byteSlice E b) e = byteOf (E e) b :=
  byteOf_lanesOf _ he

/-- `UBSF` and `BSF` are the same function of 16 blocks (R101). -/
theorem byteUnslice_eq_byteSlice : byteUnslice = byteSlice := rfl

/-- The transpose of a square matrix of bytes is its own inverse (R101). -/
theorem byteSlice_byteSlice (E : Nat → Block) {e : Nat} (he : e < 16) :
    byteSlice (byteSlice E) e = E e :=
  block_ext_lanes fun b hb => by rw [byteOf_byteSlice _ e hb, byteOf_byteSlice E b he]

/-! ### The effects of the two commands -/

variable {s : State} {dst src : Field}

/-- Both commands write one function of the source over the destination (R102, R103). -/
theorem instrEffect_ubsl (dst src : Field) : instrEffect (.ubsl dst src) = instrEffect (.bsl dst src) := by
  funext s
  simp only [instrEffect, ubslEffect, bslEffect, byteUnslice_eq_byteSlice]

/-- The two commands differ in name and opcode only (R101): where no fault records the word, they do the
same. -/
theorem exec_ubsl_eq_exec_bsl (hc : copyCause s.cfg dst src 16 = none) :
    exec (.ubsl dst src) s = exec (.bsl dst src) s := by
  cases hf : s.fault with
  | true => rw [exec_eq, exec_eq, command_halted hf, command_halted hf]
  | false =>
    rw [exec_completes (i := .ubsl dst src) hf hc, exec_completes (i := .bsl dst src) hf hc,
      instrEffect_ubsl]

theorem copyCause_eq_none_of_disjoint {c : Config} {n : Nat} (hsrc : src.toNat + n ≤ c.memBlocks)
    (hdst : dst.toNat + n ≤ c.memBlocks)
    (hclear : dst.toNat + n ≤ src.toNat ∨ src.toNat + n ≤ dst.toNat) :
    copyCause c dst src n = none :=
  (copyCause_eq_none c dst src n).mpr ⟨⟨hsrc, hdst⟩, by omega⟩

theorem readBlock_instrEffect_bsl (s : State) (dst src : Field) {b : Nat} (hb : b < 16) :
    (instrEffect (.bsl dst src) s).readBlock (dst.toNat + b) = byteSlice (s.view src.toNat 1) b :=
  readBlock_writeView_dense s dst.toNat _ hb

/-- Slicing into `r` and, from a state that still holds those rows, slicing `r` into `y` leaves in `y` what
`x` held at first (R104). -/
theorem readBlock_instrEffect_bsl_of_holds_slice {s₂ : State} {x r y : Field}
    (hrows : ∀ a, r.toNat ≤ a → a < r.toNat + 16 →
      s₂.readBlock a = (instrEffect (.bsl r x) s).readBlock a) {e : Nat} (he : e < 16) :
    (instrEffect (.bsl y r) s₂).readBlock (y.toNat + e) = s.readBlock (x.toNat + e) := by
  have hslice : ∀ b < 16, s₂.view r.toNat 1 b = byteSlice (s.view x.toNat 1) b := fun b hb => by
    rw [view_dense, hrows _ (Nat.le_add_right _ _) (Nat.add_lt_add_left hb _),
      readBlock_instrEffect_bsl s r x hb]
  rw [readBlock_instrEffect_bsl s₂ y r he, byteSlice_congr hslice, byteSlice_byteSlice _ he, view_dense]

/-! ### Another word width -/

/-- A command keeps the parameters (R31). -/
theorem exec_keeps_cfg {i : Instr} {s t : State} (h : exec i s = .next t) : t.cfg = s.cfg := by
  rcases exec_cases h with ⟨_, rfl⟩ | ⟨_, c, _, rfl⟩ | ⟨_, _, rfl⟩
  · rfl
  · rfl
  · exact instrEffect_cfg i s

/-- A command with the same checks and the same effect at another word width does the same there. -/
theorem exec_withWidth {i : Instr} {s t : State} {w : WordWidth}
    (hc : instrCause { s.cfg with width := w } i = instrCause s.cfg i)
    (he : instrEffect i (s.withConfig { s.cfg with width := w }) =
      (instrEffect i s).withConfig { s.cfg with width := w })
    (h : exec i s = .next t) :
    exec i (s.withConfig { s.cfg with width := w }) = .next (t.withConfig { t.cfg with width := w }) := by
  rw [exec_keeps_cfg h]
  exact exec_withConfig hc he h

end Sys2Proof.Machine
end

section
/-! PROOFS. The statements about the byte slice of 41_byte_slice.md. -/

namespace Sys2Proof.Proofs.ByteSlice

open Sys2Proof Sys2Proof.Machine

/-- Settles O28: the checks of R102 pass, and the effect writes `BSF` of the batch over the destination. -/
theorem bslLeavesTheSlicedRows : Obligations.BslLeavesTheSlicedRows := by
  intro s dst src hf hsrc hdst hclear
  have hc := copyCause_eq_none_of_disjoint hsrc hdst hclear
  refine ⟨_, exec_completes hf hc, writeView_eq .., fun b hb e he => ?rows, fun a ha => ?frame⟩
  case rows => rw [readBlock_instrEffect_bsl s dst src hb, byteOf_byteSlice _ b he, view_dense]
  case frame => exact instrEffect_readBlock_of_not_writesBlock ha

/-- Settles O29: where the checks of R103 pass `UBSL` does what `BSL` does. -/
theorem ubslLeavesTheElements : Obligations.UbslLeavesTheElements := by
  intro s dst src hf hsrc hdst hclear
  rw [exec_ubsl_eq_exec_bsl (copyCause_eq_none_of_disjoint hsrc hdst hclear)]
  exact bslLeavesTheSlicedRows s dst src hf hsrc hdst hclear

/-- Settles O49: both formulas are the bytes of one transpose, which undoes itself. -/
theorem byteSliceIsItsOwnInverse : Obligations.ByteSliceIsItsOwnInverse := by
  unfold Obligations.ByteSliceIsItsOwnInverse
  rw [byteUnslice_eq_byteSlice]
  exact ⟨fun E b _ _ => byteOf_byteSlice E b, fun S e _ _ => byteOf_byteSlice S e, fun _ _ => rfl,
    fun E _ => byteSlice_byteSlice E⟩

/-- Settles O50: in either order the second command slices the rows the first has left. -/
theorem byteSliceRoundTripRestoresTheBatch : Obligations.ByteSliceRoundTripRestoresTheBatch := by
  rintro s s₁ s₂ s₃ x r y hf hf₂ (⟨h₁, h₂⟩ | ⟨h₁, h₂⟩) hf₁ hf₃ hrows e he
  all_goals
    obtain ⟨_, rfl⟩ := exec_completed hf h₁ hf₁
    obtain ⟨_, rfl⟩ := exec_completed hf₂ h₂ hf₃
    simp only [instrEffect_ubsl] at hrows ⊢
    exact readBlock_instrEffect_bsl_of_holds_slice hrows he

/-- Settles O51: neither the checks of a slice nor its effect name the width. -/
theorem byteSliceIgnoresTheWordWidth : Obligations.ByteSliceIgnoresTheWordWidth :=
  fun _ _ _ _ _ => ⟨exec_withWidth rfl (withConfig_writeView ..),
    exec_withWidth rfl (withConfig_writeView ..)⟩

end Sys2Proof.Proofs.ByteSlice
end

section
/-! SUPPORT. The checks of a configuration as rules about bytes (00_scope.md R7; 42_gf256_scalar.md R111 to
R116). -/

namespace Sys2Proof

@[simp] theorem byteOfNat_toNat (x : Byte) : byteOfNat x.toNat = x := by
  rw [byteOfNat, BitVec.ofNat_toNat, BitVec.setWidth_eq]

theorem toNat_byteOfNat {n : Nat} (hn : n < 256) : (byteOfNat n).toNat = n := by
  rw [byteOfNat, BitVec.toNat_ofNat, Nat.mod_eq_of_lt hn]

theorem byte_toNat_eq_zero_iff (x : Byte) : x.toNat = 0 ↔ x = 0 := BitVec.toNat_inj (y := 0)

theorem byte_toNat_lt_255_iff (x : Byte) : x.toNat < 255 ↔ x ≠ 255 := by bv_omega

/-- The numbers below 256 are the bytes. -/
theorem forall_byteOfNat_iff {n : Nat} (hn : n ≤ 256) (P : Nat → Byte → Prop) :
    (∀ k < n, P k (byteOfNat k)) ↔ ∀ x : Byte, x.toNat < n → P x.toNat x := by
  constructor
  · intro h x hx
    simpa using h x.toNat hx
  · intro h k hk
    have hval : (byteOfNat k).toNat = k := toNat_byteOfNat (by omega)
    simpa only [hval] using h (byteOfNat k) (by omega)

theorem forall_byteOfNat_256_iff (P : Nat → Byte → Prop) :
    (∀ k < 256, P k (byteOfNat k)) ↔ ∀ x : Byte, P x.toNat x :=
  (forall_byteOfNat_iff (Nat.le_refl 256) P).trans ⟨fun h x => h x x.isLt, fun h x _ => h x⟩

/-- R7 and R111 to R116, rule by rule. -/
structure Config.RulesHold (c : Config) : Prop where
  memBlocks_bounds : 1 ≤ c.memBlocks ∧ c.memBlocks ≤ 65536
  exp_ne_zero : ∀ e, e ≠ 255 → c.expTable.at e ≠ 0
  log_exp : ∀ e, e ≠ 255 → c.logTable.at (c.expTable.at e) = e
  log_ne : ∀ x, x ≠ 0 → c.logTable.at x ≠ 255
  exp_log : ∀ x, x ≠ 0 → c.expTable.at (c.logTable.at x) = x
  log_one : c.logTable.at 1 = 0
  exp_zero : c.expTable.at 0 = 1
  exp_last : c.expTable.at 255 = c.expTable.at 0
  alphaMap_at : ∀ x, c.alphaMap.at x = c.productByFormula x c.alpha

namespace Config

variable (c : Config)

theorem expBijective_iff : c.expBijective = true ↔
    ∀ e, e ≠ 255 → c.expTable.at e ≠ 0 ∧ c.logTable.at (c.expTable.at e) = e := by
  simp only [expBijective, List.all_eq_true, List.mem_range, Bool.and_eq_true, Bool.not_eq_true',
    ← Bool.not_eq_true, Nat.beq_eq]
  rw [forall_byteOfNat_iff (by decide) fun n e =>
    ¬ (c.expTable.at e).toNat = 0 ∧ (c.logTable.at (c.expTable.at e)).toNat = n]
  simp only [byte_toNat_lt_255_iff, BitVec.toNat_inj, byte_toNat_eq_zero_iff, ne_eq]

theorem logInverse_iff : c.logInverse = true ↔
    ∀ x, x ≠ 0 → c.logTable.at x ≠ 255 ∧ c.expTable.at (c.logTable.at x) = x := by
  simp only [logInverse, List.all_eq_true, List.mem_range, Bool.or_eq_true, Bool.and_eq_true,
    decide_eq_true_eq, Nat.beq_eq, ← Nat.lt_succ_iff]
  rw [forall_byteOfNat_256_iff fun n x => n = 0 ∨ (c.logTable.at x).toNat < 255 ∧
    (c.expTable.at (c.logTable.at x)).toNat = n]
  simp only [byte_toNat_lt_255_iff, BitVec.toNat_inj, byte_toNat_eq_zero_iff, or_iff_not_imp_left, ne_eq]

theorem alphaMapOk_iff : c.alphaMapOk = true ↔
    ∀ x, c.alphaMap.at x = c.productByFormula x c.alpha := by
  simp only [alphaMapOk, List.all_eq_true, List.mem_range, Nat.beq_eq, BitVec.toNat_inj]
  exact forall_byteOfNat_256_iff fun _ x => c.alphaMap.at x = c.productByFormula x c.alpha

theorem wellFormed_iff : c.WellFormed ↔ c.RulesHold := by
  simp only [WellFormed, check, memBlocksOk, pinnedLiterals, expWraps, Bool.and_eq_true,
    decide_eq_true_eq, expBijective_iff, logInverse_iff, alphaMapOk_iff]
  constructor
  · rintro ⟨⟨⟨⟨⟨hblocks, hexp⟩, hlog⟩, hone, hzero⟩, hlast⟩, halpha⟩
    exact ⟨hblocks, fun e he => (hexp e he).1, fun e he => (hexp e he).2, fun x hx => (hlog x hx).1,
      fun x hx => (hlog x hx).2, hone, hzero, hlast, halpha⟩
  · rintro ⟨hblocks, hne, hle, hln, hel, hone, hzero, hlast, halpha⟩
    exact ⟨⟨⟨⟨⟨hblocks, fun e he => ⟨hne e he, hle e he⟩⟩, fun x hx => ⟨hln x hx, hel x hx⟩⟩,
      hone, hzero⟩, hlast⟩, halpha⟩

end Config

end Sys2Proof
end

section
/-! SUPPORT. The scalar product (42_gf256_scalar.md R117, R119): the index it looks up, what it reads, and in
a well-formed configuration the addition of exponents modulo 255, from which the laws of R121 follow. -/

namespace Sys2Proof.Machine

/-! ### The index and the entries read -/

theorem reducedExponent_eq_mod {t : Nat} (ht : t < 510) : reducedExponent t = t % 255 := by
  unfold reducedExponent
  split <;> omega

/-- Bytes below 255 have a sum whose reduced exponent is an index other than 255 (R117). -/
theorem reducedExponent_add_eq_mod {x y : Byte} (hx : x ≠ 255) (hy : y ≠ 255) :
    reducedExponent (x.toNat + y.toNat) = (x.toNat + y.toNat) % 255 := by
  rw [← byte_toNat_lt_255_iff] at hx hy
  exact reducedExponent_eq_mod (by omega)

/-- The number of an exponent modulo 255 as an index of `EXP_TABLE`. -/
theorem toNat_ofNat_mod_255 (e : Nat) : (BitVec.ofNat 8 (e % 255)).toNat = e % 255 :=
  toNat_byteOfNat (by omega)

theorem ofNat_mod_255_ne (e : Nat) : BitVec.ofNat 8 (e % 255) ≠ 255 := by
  rw [← byte_toNat_lt_255_iff, toNat_ofNat_mod_255]
  exact Nat.mod_lt _ (by decide)

/-- R117's conditional subtraction, written as a choice between two entries. -/
theorem gmul_eq (c : Config) (lhs rhs : Byte) : gmul c lhs rhs =
    if lhs = 0 ∨ rhs = 0 then 0
    else if (c.logTable.at lhs).toNat + (c.logTable.at rhs).toNat > 254 then
      c.expTable.at (BitVec.ofNat 8 ((c.logTable.at lhs).toNat + (c.logTable.at rhs).toNat - 255))
    else c.expTable.at (BitVec.ofNat 8 ((c.logTable.at lhs).toNat + (c.logTable.at rhs).toNat)) := by
  unfold gmul reducedExponent
  split
  next => rfl
  next => split <;> rfl

theorem gmul_zero (c : Config) (a : Byte) : gmul c a 0 = 0 := if_pos (.inr rfl)

theorem zero_gmul (c : Config) (a : Byte) : gmul c 0 a = 0 := if_pos (.inl rfl)

theorem gmul_of_ne_zero (c : Config) {a b : Byte} (ha : a ≠ 0) (hb : b ≠ 0) : gmul c a b =
    c.expTable.at (BitVec.ofNat 8 (reducedExponent ((c.logTable.at a).toNat + (c.logTable.at b).toNat))) :=
  if_neg (not_or.mpr ⟨ha, hb⟩)

theorem gmul_comm (c : Config) (a b : Byte) : gmul c a b = gmul c b a := by
  simp only [gmul, or_comm, Nat.add_comm]

/-- The product reads the logarithms of its nonzero operands and one antilogarithm. -/
theorem gmul_congr {c d : Config} {a b : Byte}
    (hlog : ∀ x, x ≠ 0 → d.logTable.at x = c.logTable.at x)
    (hexp : a ≠ 0 → b ≠ 0 →
      d.expTable.at
          (BitVec.ofNat 8 (reducedExponent ((c.logTable.at a).toNat + (c.logTable.at b).toNat))) =
        c.expTable.at
          (BitVec.ofNat 8 (reducedExponent ((c.logTable.at a).toNat + (c.logTable.at b).toNat)))) :
    gmul d a b = gmul c a b := by
  by_cases ha : a = 0
  · rw [ha, zero_gmul, zero_gmul]
  by_cases hb : b = 0
  · rw [hb, gmul_zero, gmul_zero]
  rw [gmul_of_ne_zero d ha hb, gmul_of_ne_zero c ha hb, hlog a ha, hlog b hb, hexp ha hb]

/-- The document's formula reads the logarithms of its nonzero operands. -/
theorem productByFormula_congr {c d : Config} (hexp : d.expTable = c.expTable)
    (hlog : ∀ x, x ≠ 0 → d.logTable.at x = c.logTable.at x) (a b : Byte) :
    d.productByFormula a b = c.productByFormula a b := by
  unfold Config.productByFormula
  split
  next => rfl
  next h =>
    obtain ⟨ha, hb⟩ := not_or.mp h
    rw [hexp, hlog a ha, hlog b hb]

/-- No rule reads `LOG_TABLE[0]` (R114). -/
theorem rulesHold_of_log_eq {c d : Config} (h : c.RulesHold) (hcfg : d = { c with logTable := d.logTable })
    (hlog : ∀ x, x ≠ 0 → d.logTable.at x = c.logTable.at x) : d.RulesHold := by
  have hexp : d.expTable = c.expTable := by rw [hcfg]
  have halpha : d.alpha = c.alpha := by rw [hcfg]
  have hmap : d.alphaMap = c.alphaMap := by rw [hcfg]
  have hblocks : d.memBlocks = c.memBlocks := by rw [hcfg]
  constructor
  case memBlocks_bounds => exact hblocks ▸ h.memBlocks_bounds
  case exp_ne_zero => exact hexp ▸ h.exp_ne_zero
  case log_exp =>
    intro e he
    rw [hexp, hlog _ (h.exp_ne_zero e he), h.log_exp e he]
  case log_ne =>
    intro x hx
    rw [hlog x hx]
    exact h.log_ne x hx
  case exp_log =>
    intro x hx
    rw [hexp, hlog x hx, h.exp_log x hx]
  case log_one => exact (hlog 1 (by decide)).trans h.log_one
  case exp_zero => exact hexp ▸ h.exp_zero
  case exp_last => exact hexp ▸ h.exp_last
  case alphaMap_at =>
    intro x
    rw [hmap, halpha, productByFormula_congr hexp hlog, h.alphaMap_at]

/-! ### Exponents modulo 255 -/

/-- The byte with exponent `e`: `EXP_TABLE` at `e` modulo 255 (R111). -/
def antilog (c : Config) (e : Nat) : Byte := c.expTable.at (BitVec.ofNat 8 (e % 255))

section WellFormed

variable {c : Config} (h : c.RulesHold)

include h

theorem gmul_eq_antilog {a b : Byte} (ha : a ≠ 0) (hb : b ≠ 0) :
    gmul c a b = antilog c ((c.logTable.at a).toNat + (c.logTable.at b).toNat) := by
  rw [gmul_of_ne_zero c ha hb, reducedExponent_add_eq_mod (h.log_ne a ha) (h.log_ne b hb), antilog]

theorem gmul_eq_productByFormula (a b : Byte) : gmul c a b = c.productByFormula a b := by
  unfold Config.productByFormula
  split
  next hzero => exact if_pos hzero
  next hne =>
    obtain ⟨ha, hb⟩ := not_or.mp hne
    exact gmul_eq_antilog h ha hb

theorem gmulc_eq_gmul (r : Byte) : gmulc c r = gmul c r c.alpha := by
  rw [gmul_eq_productByFormula h, ← h.alphaMap_at, gmulc]

theorem antilog_ne_zero (e : Nat) : antilog c e ≠ 0 := h.exp_ne_zero _ (ofNat_mod_255_ne e)

theorem log_antilog (e : Nat) : (c.logTable.at (antilog c e)).toNat = e % 255 := by
  rw [antilog, h.log_exp _ (ofNat_mod_255_ne e), toNat_ofNat_mod_255]

/-- Every nonzero byte has an exponent (R112). -/
theorem exists_antilog {x : Byte} (hx : x ≠ 0) : ∃ e, antilog c e = x := by
  refine ⟨(c.logTable.at x).toNat, ?_⟩
  have hlt := (byte_toNat_lt_255_iff _).mpr (h.log_ne x hx)
  rw [antilog, Nat.mod_eq_of_lt hlt, BitVec.ofNat_toNat, BitVec.setWidth_eq, h.exp_log x hx]

/-- Exponents add. -/
theorem gmul_antilog (m n : Nat) : gmul c (antilog c m) (antilog c n) = antilog c (m + n) := by
  rw [gmul_eq_antilog h (antilog_ne_zero h m) (antilog_ne_zero h n), log_antilog h, log_antilog h, antilog,
    antilog, ← Nat.add_mod]

theorem antilog_eq_one {e : Nat} (he : e % 255 = 0) : antilog c e = 1 := by
  rw [antilog, he]
  exact h.exp_zero

theorem gmul_ne_zero {a b : Byte} (ha : a ≠ 0) (hb : b ≠ 0) : gmul c a b ≠ 0 :=
  gmul_eq_antilog h ha hb ▸ antilog_ne_zero h _

theorem gmul_one (a : Byte) : gmul c a 1 = a := by
  by_cases ha : a = 0
  · rw [ha, zero_gmul]
  obtain ⟨e, rfl⟩ := exists_antilog h ha
  rw [← antilog_eq_one h (Nat.zero_mod 255), gmul_antilog h, Nat.add_zero]

theorem gmul_assoc (a b d : Byte) : gmul c (gmul c a b) d = gmul c a (gmul c b d) := by
  by_cases ha : a = 0
  · simp only [ha, zero_gmul]
  by_cases hb : b = 0
  · simp only [hb, zero_gmul, gmul_zero]
  by_cases hd : d = 0
  · simp only [hd, gmul_zero]
  obtain ⟨m, rfl⟩ := exists_antilog h ha
  obtain ⟨n, rfl⟩ := exists_antilog h hb
  obtain ⟨k, rfl⟩ := exists_antilog h hd
  simp only [gmul_antilog h, Nat.add_assoc]

/-- The byte whose exponent is the opposite one modulo 255 is an inverse. -/
theorem exists_gmul_eq_one {a : Byte} (ha : a ≠ 0) : ∃ b, gmul c a b = 1 := by
  obtain ⟨e, rfl⟩ := exists_antilog h ha
  refine ⟨antilog c (254 * e), ?_⟩
  rw [gmul_antilog h]
  exact antilog_eq_one h (by omega)

/-- Multiplication by a nonzero byte is undone by multiplication by its inverse. -/
theorem gmul_bijective {a : Byte} (ha : a ≠ 0) : Function.Bijective fun x => gmul c x a := by
  obtain ⟨b, hb⟩ := exists_gmul_eq_one h ha
  have hb' : gmul c b a = 1 := gmul_comm c b a ▸ hb
  refine Function.bijective_iff_has_inverse.mpr ⟨fun x => gmul c x b, fun x => ?left, fun x => ?right⟩
  case left => simp only [gmul_assoc h, hb, gmul_one h]
  case right => simp only [gmul_assoc h, hb', gmul_one h]

end WellFormed

end Sys2Proof.Machine
end

section
/-! SUPPORT. Where the sentinel `LOG_TABLE[0]` shows (42_gf256_scalar.md R114): not in the packed multiply of
43_gf256_lanes.md R135, and of the commands in the table lookup alone. -/

namespace Sys2Proof.Machine

/-! ### The packed multiply -/

/-- Quadrant `q` answers for the indices of the quadrant and gives 0 for the others (R132). -/
theorem nl64_quadrant (t : Table) {q : Nat} (hq : q < 4) (x : Byte) :
    nl64 (quadrant t q) (x ^^^ BitVec.ofNat 8 (64 * q)) = if x.toNat / 64 = q then t.at x else 0 := by
  have hval : (x ^^^ BitVec.ofNat 8 (64 * q)).toNat = x.toNat ^^^ 64 * q := by
    rw [BitVec.toNat_xor, BitVec.toNat_ofNat, Nat.mod_eq_of_lt (by omega)]
  have hdiv : (x.toNat ^^^ 64 * q) / 64 = x.toNat / 64 ^^^ q := by
    rw [Nat.xor_div_two_pow (n := 6), Nat.mul_div_cancel_left q (by decide)]
  have hmod : (x.toNat ^^^ 64 * q) % 64 = x.toNat % 64 := by
    rw [Nat.xor_mod_two_pow (n := 6), Nat.mul_mod_right, Nat.xor_zero]
  have hlt : x.toNat ^^^ 64 * q < 64 ↔ x.toNat / 64 = q := by
    rw [← Nat.xor_eq_zero_iff, ← hdiv, Nat.div_eq_zero_iff_lt (by decide)]
  rw [nl64, quadrant, hval]
  simp only [hlt]
  split
  next hx =>
    have hindex : 64 * q + (x.toNat ^^^ 64 * q) = x.toNat := by
      have := hlt.mpr hx
      omega
    rw [hindex, BitVec.ofNat_toNat, BitVec.setWidth_eq]
  next => rfl

/-- Each index lies in one of the four quadrants (R133). -/
theorem lookupByQuadrants_eq (t : Table) (x : Byte) : lookupByQuadrants t x = t.at x := by
  have hparts : lookupByQuadrants t x =
      (if x.toNat / 64 = 0 then t.at x else 0) ||| (if x.toNat / 64 = 1 then t.at x else 0) |||
        (if x.toNat / 64 = 2 then t.at x else 0) ||| (if x.toNat / 64 = 3 then t.at x else 0) := by
    rw [← nl64_quadrant t (by decide) x, ← nl64_quadrant t (by decide) x,
      ← nl64_quadrant t (by decide) x, ← nl64_quadrant t (by decide) x]
    rfl
  have hq : x.toNat / 64 = 0 ∨ x.toNat / 64 = 1 ∨ x.toNat / 64 = 2 ∨ x.toNat / 64 = 3 := by omega
  rw [hparts]
  rcases hq with hq | hq | hq | hq <;> simp [hq]

theorem byteOf_laneLookup (t : Table) (idx : Block) {l : Nat} (hl : l < 16) :
    byteOf (laneLookup t idx) l = t.at (byteOf idx l) := by
  rw [laneLookup, byteOf_lanesOf _ hl, lookupByQuadrants_eq]

/-- Lane `l` of `PMF` (R135). -/
theorem byteOf_packedMultiply (c : Config) (a b : Block) {l : Nat} (hl : l < 16) :
    byteOf (packedMultiply c a b) l =
      if byteOf a l = 0 ∨ byteOf b l = 0 then 0
      else c.expTable.at
        (packedExponent (c.logTable.at (byteOf a l)) (c.logTable.at (byteOf b l))) := by
  rw [packedMultiply, byteOf_lanesOf _ hl, byteOf_laneLookup _ _ hl, byteOf_lanesOf _ hl,
    byteOf_laneLookup _ _ hl, byteOf_laneLookup _ _ hl]

theorem packedMultiply_congr {c d : Config} (hexp : d.expTable = c.expTable)
    (hlog : ∀ x, x ≠ 0 → d.logTable.at x = c.logTable.at x) (a b : Block) :
    packedMultiply d a b = packedMultiply c a b := by
  refine block_ext_lanes fun l hl => ?_
  rw [byteOf_packedMultiply d a b hl, byteOf_packedMultiply c a b hl]
  split
  next => rfl
  next h =>
    obtain ⟨ha, hb⟩ := not_or.mp h
    rw [hexp, hlog _ ha, hlog _ hb]

/-! ### The commands -/

/-- In another configuration with the same checks a command answers the same, or has its effect in both. -/
theorem exec_withConfig_cases {i : Instr} {s t u : State} {c : Config}
    (hc : instrCause c i = instrCause s.cfg i) (ht : exec i s = .next t)
    (hu : exec i (s.withConfig c) = .next u) :
    u = t.withConfig c ∨ (t = instrEffect i s ∧ u = instrEffect i (s.withConfig c)) := by
  rw [exec_eq, withConfig_cfg, hc] at hu
  rcases exec_cases ht with ⟨hf, rfl⟩ | ⟨hf, x, hx, rfl⟩ | ⟨hf, hx, rfl⟩
  · rw [command_halted (s := t.withConfig c) hf] at hu
    exact .inl (Host.Outcome.next.inj hu).symm
  · rw [hx, command_faults (s := s.withConfig c) hf] at hu
    exact .inl (Host.Outcome.next.inj hu).symm
  · rw [hx, command_completes (s := s.withConfig c) hf] at hu
    exact .inr ⟨rfl, (Host.Outcome.next.inj hu).symm⟩

/-- No operand check reads a table. -/
theorem instrCause_withLogTable (c : Config) (T : Table) (i : Instr) :
    instrCause { c with logTable := T } i = instrCause c i := by cases i <;> rfl

section LogTable

variable {s : State} {T : Table} (hT : ∀ x, x ≠ 0 → T.at x = s.cfg.logTable.at x)

include hT

theorem gmul_withLogTable (a b : Byte) : gmul { s.cfg with logTable := T } a b = gmul s.cfg a b :=
  gmul_congr hT fun _ _ => rfl

/-- The effects read the logarithms in products alone, but for the lookup of the table itself. -/
theorem instrEffect_withLogTable {i : Instr} (hi : ∀ dst src, i ≠ .llkup dst src .log) :
    instrEffect i (s.withConfig { s.cfg with logTable := T }) =
      (instrEffect i s).withConfig { s.cfg with logTable := T } := by
  cases i with
  | trn base stride => exact withConfig_writeView ..
  | trnd dst src stride => exact withConfig_writeView ..
  | trnr base stride => exact withConfig_writeView ..
  | bsl dst src => exact withConfig_writeView ..
  | ubsl dst src => exact withConfig_writeView ..
  | gfmul lhs rhs =>
    simp only [instrEffect, gfmulEffect, withConfig_cfg, gmul_withLogTable hT, withConfig_setSres]
  | gfmulc rhs => rfl
  | llkup dst src table =>
    cases table with
    | log => exact absurd rfl (hi dst src)
    | exp => rfl
    | alpha => rfl
  | pmul dst a b =>
    simp only [instrEffect, pmulEffect, withConfig_cfg, gmul_withLogTable hT, withConfig_readBlock,
      withConfig_writeBlock]
  | pmulc dst src => rfl
  | bmul64 dst a b => exact withConfig_writeView ..

theorem exec_withLogTable {i : Instr} {t : State} (hi : ∀ dst src, i ≠ .llkup dst src .log)
    (h : exec i s = .next t) : exec i (s.withConfig { s.cfg with logTable := T }) =
      .next (t.withConfig { t.cfg with logTable := T }) := by
  rw [exec_keeps_cfg h]
  exact exec_withConfig (instrCause_withLogTable ..) (instrEffect_withLogTable hT hi) h

end LogTable

/-- The destination of a lookup, lane by lane (43_gf256_lanes.md R134). -/
theorem byteOf_readBlock_instrEffect_llkup (s : State) (dst src : Field) (table : TableSel) {l : Nat}
    (hl : l < 16) : byteOf ((instrEffect (.llkup dst src table) s).readBlock dst.toNat) l =
      (selectedTable s.cfg table).at (byteOf (s.readBlock src.toNat) l) := by
  rw [instrEffect, llkupEffect, readBlock_writeBlock, if_pos rfl, byteOf_lanesOf _ hl]

end Sys2Proof.Machine
end

section
/-! SUPPORT. The field property of 42_gf256_scalar.md R122: a map given by its values at the eight bits is
additive, and the product is additive when multiplication by the generator is. -/

namespace Sys2Proof.Machine

/-- The XOR of the values `v j` at those bits `j` of the list that are 1 in `x`. -/
def bitCombination (v : Nat → Byte) : List Nat → Byte → Byte
  | [], _ => 0
  | j :: js, x => (if x.getLsbD j then v j else 0) ^^^ bitCombination v js x

theorem bitCombination_xor (v : Nat → Byte) (js : List Nat) (x y : Byte) :
    bitCombination v js (x ^^^ y) = bitCombination v js x ^^^ bitCombination v js y := by
  induction js with
  | nil => exact BitVec.xor_self.symm
  | cons j js ih =>
    have hbit : (if (x ^^^ y).getLsbD j then v j else 0) =
        (if x.getLsbD j then v j else 0) ^^^ (if y.getLsbD j then v j else 0) := by
      rw [BitVec.getLsbD_xor]
      cases x.getLsbD j <;> cases y.getLsbD j <;> simp
    simp only [bitCombination, ih, hbit]
    ac_rfl

/-- Every nonzero byte is a power of the generator `EXP_TABLE[1]`, and products of additive maps are
additive. -/
theorem tablesAreField_of_generator {c : Config} (h : c.RulesHold)
    (hgen : ∀ b d, gmul c (antilog c 1) (b ^^^ d) = gmul c (antilog c 1) b ^^^ gmul c (antilog c 1) d) :
    TablesAreField c := by
  have hpow (e : Nat) (b d : Byte) :
      gmul c (antilog c e) (b ^^^ d) = gmul c (antilog c e) b ^^^ gmul c (antilog c e) d := by
    induction e with
    | zero =>
      have hone (x : Byte) : gmul c (antilog c 0) x = x := by
        rw [antilog_eq_one h (Nat.zero_mod 255), gmul_comm, gmul_one h]
      simp only [hone]
    | succ e ih =>
      have hsucc (x : Byte) : gmul c (antilog c (e + 1)) x =
          gmul c (antilog c 1) (gmul c (antilog c e) x) := by
        rw [← gmul_assoc h, gmul_antilog h, Nat.add_comm]
      simp only [hsucc, ih, hgen]
  intro a b d
  by_cases ha : a = 0
  · simp only [ha, zero_gmul]
    exact BitVec.xor_self.symm
  · obtain ⟨e, rfl⟩ := exists_antilog h ha
    exact hpow e b d

/-- In `REF` the products by the generator are given by those of the eight bits (V-GF0, computed). -/
theorem reference_gmul_generator : ∀ x, gmul Config.reference (antilog Config.reference 1) x =
    bitCombination (fun j => gmul Config.reference (antilog Config.reference 1) (BitVec.twoPow 8 j))
      (List.range 8) x := by
  decide +kernel

end Sys2Proof.Machine
end

section
/-! PROOFS. The statements about the scalar product of 42_gf256_scalar.md. -/

namespace Sys2Proof.Proofs.Scalar

open Sys2Proof Sys2Proof.Machine

/-- Settles O52: the reduced exponent is the sum modulo 255, so never 255, and operands other than 0 have the
only logarithms read. -/
theorem scalarProductAddsLogarithmsModulo255 : Obligations.ScalarProductAddsLogarithmsModulo255 := by
  refine ⟨gmul_eq, fun c lhs rhs hc => ?modulo, fun c d lhs rhs hc hlog hexp => ?unread⟩
  case modulo => exact gmul_eq_productByFormula (c.wellFormed_iff.mp hc) lhs rhs
  case unread =>
    have h := c.wellFormed_iff.mp hc
    refine gmul_congr hlog fun hlhs hrhs => hexp _ ?_
    rw [reducedExponent_add_eq_mod (h.log_ne lhs hlhs) (h.log_ne rhs hrhs)]
    exact ofNat_mod_255_ne _

/-- Settles O53: nonzero bytes multiply by adding exponents modulo 255. -/
theorem scalarProductLaws : Obligations.ScalarProductLaws := by
  intro c hc
  have h := c.wellFormed_iff.mp hc
  refine ⟨gmul_comm c, gmul_one h, fun a => ⟨gmul_zero c a, zero_gmul c a⟩, ⟨?one, h.exp_zero⟩, ?alphaZero,
    gmulc_eq_gmul h, fun a b => gmul_ne_zero h, gmul_assoc h⟩
  case one => rw [gmul_one h, h.exp_zero]
  case alphaZero => rw [gmulc_eq_gmul h, zero_gmul]

/-- Settles O54: `ALPHA_MAP` is multiplication by `ALPHA`, which has an inverse. -/
theorem alphaMapIsABijectionForNonzeroAlpha : Obligations.AlphaMapIsABijectionForNonzeroAlpha := by
  intro c hc halpha
  have h := c.wellFormed_iff.mp hc
  obtain ⟨hinj, hsurj⟩ := gmul_bijective h halpha
  simp only [gmulc_eq_gmul h]
  refine ⟨fun x hx => ?_, fun x y hxy => hinj hxy, hsurj⟩
  by_contra hne
  exact gmul_ne_zero h hne halpha hx

/-- Settles O55: every reading of `LOG_TABLE` but that of the lookup is at a nonzero byte. -/
theorem logSentinelIsFreeAndVisibleOnlyInLlkup : Obligations.LogSentinelIsFreeAndVisibleOnlyInLlkup := by
  refine ⟨fun c d hc hd hlog => ?tables, fun s t i T hT hi ht => exec_withLogTable hT hi ht,
    fun s t u dst src T hT ht hu => ?otherLanes, fun s t dst src l _ ht hft hl hzero => ?zeroLane, rfl⟩
  case tables =>
    have hexp : d.expTable = c.expTable := by rw [hd]
    refine ⟨d.wellFormed_iff.mpr (rulesHold_of_log_eq (c.wellFormed_iff.mp hc) hd hlog),
      fun a b => gmul_congr hlog fun _ _ => by rw [hexp], packedMultiply_congr hexp hlog⟩
  case otherLanes =>
    have hcfg := exec_keeps_cfg ht
    rcases exec_withConfig_cases (instrCause_withLogTable ..) ht hu with rfl | ⟨rfl, rfl⟩
    · rw [hcfg]
      exact ⟨rfl, fun _ _ _ => rfl, fun _ _ => rfl⟩
    · refine ⟨rfl, fun l hl hne => ?_, fun a ha => ?_⟩
      · rw [byteOf_readBlock_instrEffect_llkup _ dst src .log hl,
          byteOf_readBlock_instrEffect_llkup s dst src .log hl]
        exact hT _ hne
      · rw [instrEffect_readBlock_of_not_writesBlock (i := .llkup dst src .log) ha,
          instrEffect_readBlock_of_not_writesBlock (i := .llkup dst src .log) ha, withConfig_readBlock]
  case zeroLane =>
    obtain ⟨_, rfl⟩ := exec_completed_of_running ht hft
    rw [byteOf_readBlock_instrEffect_llkup s dst src .log hl, hzero, selectedTable]

/-- Settles O59: the checks of `REF` pass, and its products by the generator are additive. -/
theorem referenceTablesAreWellFormedAndAField : Obligations.ReferenceTablesAreWellFormedAndAField := by
  refine ⟨reference_wellFormed, ?_⟩
  apply tablesAreField_of_generator (Config.reference.wellFormed_iff.mp reference_wellFormed)
  intro b d
  simp only [reference_gmul_generator (b ^^^ d), bitCombination_xor, ← reference_gmul_generator]

/-- Settles O30: `GFMUL` has no operand check, and its effect is the product of R117. -/
theorem gfmulLeavesTheProductInSres : Obligations.GfmulLeavesTheProductInSres := by
  intro s lhs rhs hf
  rw [exec_completes hf rfl, ← gmul_eq]
  rfl

/-- Settles O31: `GFMULC` has no operand check, and its effect is the entry of R119. -/
theorem gfmulcLeavesTheAlphaMapEntryInSres : Obligations.GfmulcLeavesTheAlphaMapEntryInSres :=
  fun _ _ hf => exec_completes hf rfl

end Sys2Proof.Proofs.Scalar
end

section
/-! SUPPORT. The packed multiply against the scalar product (43_gf256_lanes.md R136), and what the three lane
commands write (R134, R137, R138). -/

namespace Sys2Proof.Machine

/-! ### The packed multiply -/

/-- The corrected 8-bit sum is the reduced exponent but for the sum 255, which it leaves (R136). -/
theorem packedExponent_eq {x y : Byte} (hx : x ≠ 255) (hy : y ≠ 255) : packedExponent x y =
    if x.toNat + y.toNat = 255 then 255 else BitVec.ofNat 8 (reducedExponent (x.toNat + y.toNat)) := by
  rw [← byte_toNat_lt_255_iff] at hx hy
  have hsum : (x + y).toNat = (x.toNat + y.toNat) % 256 := BitVec.toNat_add x y
  have hsucc : (x + y + 1).toNat = ((x + y).toNat + 1) % 256 := BitVec.toNat_add (x + y) 1
  apply BitVec.eq_of_toNat_eq
  unfold packedExponent reducedExponent
  split
  next hwrap =>
    have hover : 256 ≤ x.toNat + y.toNat := by omega
    rw [if_neg (by omega), if_pos (by omega), hsucc, hsum, BitVec.toNat_ofNat]
    omega
  next hfits =>
    have hfits : x.toNat + y.toNat < 256 := by omega
    rw [hsum, Nat.mod_eq_of_lt hfits]
    split
    next h255 => exact h255
    next hne => rw [if_neg (by omega), BitVec.toNat_ofNat, Nat.mod_eq_of_lt hfits]

/-- Both exponents select the same antilogarithm, at the sum 255 by R115. -/
theorem expTable_packedExponent {c : Config} (h : c.RulesHold) {x y : Byte} (hx : x ≠ 255) (hy : y ≠ 255) :
    c.expTable.at (packedExponent x y) =
      c.expTable.at (BitVec.ofNat 8 (reducedExponent (x.toNat + y.toNat))) := by
  rw [packedExponent_eq hx hy]
  split
  next h255 =>
    rw [h255, h.exp_last]
    rfl
  next => rfl

theorem byteOf_packedMultiply_eq_gmul {c : Config} (h : c.RulesHold) (a b : Block) {l : Nat} (hl : l < 16) :
    byteOf (packedMultiply c a b) l = gmul c (byteOf a l) (byteOf b l) := by
  rw [byteOf_packedMultiply c a b hl, gmul]
  split
  next => rfl
  next hne =>
    obtain ⟨ha, hb⟩ := not_or.mp hne
    exact expTable_packedExponent h (h.log_ne _ ha) (h.log_ne _ hb)

/-! ### The lane commands -/

theorem laneCopyCause_eq_none_of_ne {c : Config} {dst src : Field} (hsrc : src.toNat < c.memBlocks)
    (hdst : dst.toNat < c.memBlocks) (hne : dst ≠ src) : laneCopyCause c dst src = none :=
  (laneCopyCause_eq_none c dst src).mpr ⟨⟨hsrc, hdst⟩, BitVec.toNat_injective.ne hne⟩

/-- The destination of `PMUL`, lane by lane (R137). -/
theorem byteOf_readBlock_instrEffect_pmul (s : State) (dst a b : Field) {l : Nat} (hl : l < 16) :
    byteOf ((instrEffect (.pmul dst a b) s).readBlock dst.toNat) l =
      gmul s.cfg (byteOf (s.readBlock a.toNat) l) (byteOf (s.readBlock b.toNat) l) := by
  rw [instrEffect, pmulEffect, readBlock_writeBlock, if_pos rfl, byteOf_lanesOf _ hl]

/-- `PMULC` writes the lookup of `ALPHA_MAP` (R138). -/
theorem instrEffect_pmulc (dst src : Field) :
    instrEffect (.pmulc dst src) = instrEffect (.llkup dst src .alpha) := rfl

/-- `PMULC` differs from `LLKUP` with `ALPHA` in the word a fault would record alone. -/
theorem exec_pmulc_eq_exec_llkup {s : State} {dst src : Field} (hf : s.fault = false)
    (hc : laneCopyCause s.cfg dst src = none) :
    exec (.pmulc dst src) s = exec (.llkup dst src .alpha) s := by
  rw [exec_completes (i := .pmulc dst src) hf hc, exec_completes (i := .llkup dst src .alpha) hf hc,
    instrEffect_pmulc]

/-- A product by lanes of `ALPHA` writes what `PMULC` writes (R116, R138). -/
theorem instrEffect_pmulc_eq_pmul {s : State} (h : s.cfg.RulesHold) (dst src : Field) {q : Field}
    (hq : ∀ l < 16, byteOf (s.readBlock q.toNat) l = s.cfg.alpha) :
    instrEffect (.pmulc dst src) s = instrEffect (.pmul dst src q) s :=
  congrArg (s.writeBlock dst.toNat) <| lanesOf_congr fun l hl => by rw [gmulc_eq_gmul h, hq l hl]

end Sys2Proof.Machine
end

section
/-! PROOFS. The statements about the lane commands of 43_gf256_lanes.md. -/

namespace Sys2Proof.Proofs.Lanes

open Sys2Proof Sys2Proof.Machine

/-- Settles O32: the checks of R134 pass, and the effect writes the sixteen entries. -/
theorem llkupLeavesSixteenTableEntries : Obligations.LlkupLeavesSixteenTableEntries := by
  intro s dst src table hf hsrc hdst hne
  have hc := laneCopyCause_eq_none_of_ne hsrc hdst hne
  refine ⟨_, exec_completes (i := .llkup dst src table) hf hc, rfl, fun l hl => ?lanes, fun a ha => ?frame⟩
  case lanes =>
    rw [byteOf_readBlock_instrEffect_llkup s dst src table hl]
    cases table <;> rfl
  case frame => exact instrEffect_readBlock_of_not_writesBlock ha

/-- Settles O33: the checks of R137 pass, and the sixteen products are the lanes of `PMF`. -/
theorem pmulLeavesSixteenProducts : Obligations.PmulLeavesSixteenProducts := by
  intro s dst a b hf ha hb hdst hne₁ hne₂
  have hc := (pmulCause_eq_none s.cfg dst a b).mpr
    ⟨⟨⟨ha, hb⟩, hdst⟩, BitVec.toNat_injective.ne hne₁, BitVec.toNat_injective.ne hne₂⟩
  have hlanes := fun l (hl : l < 16) => byteOf_readBlock_instrEffect_pmul s dst a b hl
  refine ⟨_, exec_completes (i := .pmul dst a b) hf hc, rfl, hlanes, fun hwf => ?packed, fun x hx => ?frame⟩
  case packed =>
    refine block_ext_lanes fun l hl => ?_
    rw [hlanes l hl, byteOf_packedMultiply_eq_gmul (s.cfg.wellFormed_iff.mp hwf) _ _ hl]
  case frame => exact instrEffect_readBlock_of_not_writesBlock hx

/-- Settles O34: where the checks of R138 pass `PMULC` does what `LLKUP` with `ALPHA` does. -/
theorem pmulcLeavesSixteenProductsByAlpha : Obligations.PmulcLeavesSixteenProductsByAlpha := by
  intro s dst src hf hsrc hdst hne
  rw [exec_pmulc_eq_exec_llkup hf (laneCopyCause_eq_none_of_ne hsrc hdst hne)]
  obtain ⟨t, ht, hmem, hlanes, hframe⟩ := llkupLeavesSixteenTableEntries s dst src .alpha hf hsrc hdst hne
  refine ⟨t, ht, hmem, hlanes, fun hwf l hl => ?byAlpha, hframe⟩
  case byAlpha => exact (hlanes l hl).trans (gmulc_eq_gmul (s.cfg.wellFormed_iff.mp hwf) _)

/-- Settles O56: each index lies in one of the four quadrants. -/
theorem quadrantLookupIsTheTableLookup : Obligations.QuadrantLookupIsTheTableLookup :=
  fun t idx _ => byteOf_laneLookup t idx

/-- Settles O57: the corrected 8-bit sum and the reduced exponent select one antilogarithm. -/
theorem packedMultiplyIsSixteenScalarMultiplies : Obligations.PackedMultiplyIsSixteenScalarMultiplies :=
  fun c a b hc _ => byteOf_packedMultiply_eq_gmul (c.wellFormed_iff.mp hc) a b

/-- Settles O58: the three commands have completed, and their effects write the same lanes. -/
theorem pmulcLlkupAlphaAndPmulByAlphaAgree : Obligations.PmulcLlkupAlphaAndPmulByAlphaAgree := by
  rintro s t₁ t₂ t₃ dst src q ⟨hf, hwf⟩ hq h₁ hf₁ h₂ h₃ hf₃
  obtain ⟨hc, rfl⟩ := exec_completed hf h₁ hf₁
  obtain ⟨_, rfl⟩ := exec_completed hf h₃ hf₃
  rw [← exec_pmulc_eq_exec_llkup hf hc, h₁] at h₂
  exact ⟨Host.Outcome.next.inj h₂, instrEffect_pmulc_eq_pmul (s.cfg.wellFormed_iff.mp hwf) dst src hq⟩

end Sys2Proof.Proofs.Lanes
end

section
/-! SUPPORT. The batched multiply of 44_batched_multiply.md: a formula for every function of two blocks
(R151), what `BMUL64` writes (R152), and which commands read the tower product (R155). -/

namespace Sys2Proof.Machine

/-! ### A formula for every function -/

/-- Decide the value of the operand `v` from bit `n - 1` down to bit 0 and go on with the formula `k` has for
that value; `p` is what the bits above have decided, the value of `v` shifted right by `n`. -/
def branchOn (v : TowerFormula) (k : Block → TowerFormula) : Nat → Nat → TowerFormula
  | 0, p => k (BitVec.ofNat 128 p)
  | n + 1, p => .select n v (branchOn v k n (p.bit true)) (branchOn v k n (p.bit false))

/-- A formula of `F`: a decision on the first operand, then one on the second (log 7). -/
def formulaOf (F : Block → Block → Block) : TowerFormula :=
  branchOn .lhs (fun a => branchOn .rhs (fun b => .const (F a b)) 128 0) 128 0

/-- The next bit down extends a shifted number. -/
theorem bit_testBit_shiftRight_succ (z n : Nat) : Nat.bit (z.testBit n) (z >>> (n + 1)) = z >>> n := by
  have h := Nat.bit_testBit_zero_shiftRight_one (z >>> n)
  rwa [Nat.testBit_shiftRight, Nat.add_zero, ← Nat.shiftRight_add] at h

theorem evalFormula_branchOn_succ (x y : Block) (v : TowerFormula) (k : Block → TowerFormula) (n p : Nat) :
    evalFormula x y (branchOn v k (n + 1) p) =
      evalFormula x y (branchOn v k n (p.bit ((evalFormula x y v).getLsbD n))) := by
  rw [branchOn, evalFormula_select]
  cases (evalFormula x y v).getLsbD n <;> rfl

/-- With the bits above decided right, the decisions lead to the value of the operand. -/
theorem evalFormula_branchOn (x y : Block) (v : TowerFormula) (k : Block → TowerFormula) (n : Nat) :
    evalFormula x y (branchOn v k n ((evalFormula x y v).toNat >>> n)) =
      evalFormula x y (k (evalFormula x y v)) := by
  induction n with
  | zero => rw [branchOn, Nat.shiftRight_zero, BitVec.ofNat_toNat, BitVec.setWidth_eq]
  | succ n ih =>
    rw [evalFormula_branchOn_succ, ← BitVec.testBit_toNat, bit_testBit_shiftRight_succ, ih]

/-- No bit of a block is above bit 127. -/
theorem evalFormula_branchOn_all (x y : Block) (v : TowerFormula) (k : Block → TowerFormula) :
    evalFormula x y (branchOn v k 128 0) = evalFormula x y (k (evalFormula x y v)) := by
  have hshift : (evalFormula x y v).toNat >>> 128 = 0 :=
    Nat.shiftRight_eq_zero _ _ (evalFormula x y v).isLt
  rw [← evalFormula_branchOn x y v k 128, hshift]

theorem evalFormula_formulaOf (F : Block → Block → Block) (x y : Block) :
    evalFormula x y (formulaOf F) = F x y := by
  rw [formulaOf, evalFormula_branchOn_all, evalFormula_branchOn_all, evalFormula_const, evalFormula_lhs,
    evalFormula_rhs]

/-! ### What the command writes -/

variable {s : State}

theorem bmul64Cause_eq_none_of_disjoint {c : Config} {dst a b : Field} (ha : a.toNat + 64 ≤ c.memBlocks)
    (hb : b.toNat + 64 ≤ c.memBlocks) (hdst : dst.toNat + 64 ≤ c.memBlocks)
    (hcleara : dst.toNat + 64 ≤ a.toNat ∨ a.toNat + 64 ≤ dst.toNat)
    (hclearb : dst.toNat + 64 ≤ b.toNat ∨ b.toNat + 64 ≤ dst.toNat) : bmul64Cause c dst a b = none :=
  (bmul64Cause_eq_none c dst a b).mpr ⟨⟨⟨ha, hb⟩, hdst⟩, by omega, by omega⟩

theorem readBlock_instrEffect_bmul64 (s : State) (dst a b : Field) {e : Nat} (he : e < 64) :
    (instrEffect (.bmul64 dst a b) s).readBlock (dst.toNat + e) =
      towerMul128 s.cfg (s.readBlock (a.toNat + e)) (s.readBlock (b.toNat + e)) := by
  rw [instrEffect, bmul64Effect, readBlock_writeView_dense s dst.toNat _ he, view_dense, view_dense]

/-! ### Another tower product -/

/-- The product reads the tower field alone (R151). -/
theorem towerMul128_congr {c d : Config} (h : c.tower = d.tower) (x y : Block) :
    towerMul128 c x y = towerMul128 d x y := by
  simp only [towerMul128, h]

/-- A command that leaves the block halted was ignored or has faulted, so in another configuration with the
same checks it answers the same. -/
theorem exec_withConfig_of_fault {i : Instr} {t : State} {c : Config}
    (hc : instrCause c i = instrCause s.cfg i) (h : exec i s = .next t) (ht : t.fault = true) :
    exec i (s.withConfig c) = .next (t.withConfig c) := by
  rw [exec_eq, withConfig_cfg, hc]
  rcases exec_cases h with ⟨hf, rfl⟩ | ⟨hf, x, hx, rfl⟩ | ⟨hf, _, rfl⟩
  · exact command_halted (s := t.withConfig c) hf _ _ _
  · rw [hx, command_faults (s := s.withConfig c) hf, withConfig_raiseFault]
  · rw [instrEffect_fault, hf] at ht
    cases ht

/-- No operand check reads the product (R155). -/
theorem instrCause_withTower (c : Config) (T : TowerMul) (i : Instr) :
    instrCause { c with tower := T } i = instrCause c i := by cases i <;> rfl

/-- No effect but that of `BMUL64` reads the product (R155). -/
theorem instrEffect_withTower {i : Instr} (hi : ∀ dst a b, i ≠ .bmul64 dst a b) (T : TowerMul) :
    instrEffect i (s.withConfig { s.cfg with tower := T }) =
      (instrEffect i s).withConfig { s.cfg with tower := T } := by
  cases i with
  | trn base stride => exact withConfig_writeView ..
  | trnd dst src stride => exact withConfig_writeView ..
  | trnr base stride => exact withConfig_writeView ..
  | bsl dst src => exact withConfig_writeView ..
  | ubsl dst src => exact withConfig_writeView ..
  | gfmul lhs rhs => rfl
  | gfmulc rhs => rfl
  | llkup dst src table => cases table <;> rfl
  | pmul dst a b => rfl
  | pmulc dst src => rfl
  | bmul64 dst a b => exact absurd rfl (hi dst a b)

/-- In another configuration the same view written with other values leaves a state that differs, but for the
configuration, in `mem` alone. -/
theorem writeView_withConfig_eq (s : State) (c : Config) (f st : Nat) (v w : Nat → Block) (n : Nat) :
    (s.withConfig c).writeView f st w n =
      { (s.writeView f st v n).withConfig c with mem := ((s.withConfig c).writeView f st w n).mem } := by
  rw [writeView_eq s f st v n]
  exact writeView_eq ..

/-- `BMUL64` reads the configuration in what it writes to `mem` alone. -/
theorem instrEffect_bmul64_withConfig (s : State) (c : Config) (dst a b : Field) :
    instrEffect (.bmul64 dst a b) (s.withConfig c) =
      { (instrEffect (.bmul64 dst a b) s).withConfig c with
        mem := (instrEffect (.bmul64 dst a b) (s.withConfig c)).mem } := by
  rw [instrEffect, bmul64Effect, bmul64Effect]
  exact writeView_withConfig_eq ..

end Sys2Proof.Machine
end

section
/-! PROOFS. The statements about the batched multiply of 44_batched_multiply.md. -/

namespace Sys2Proof.Proofs.BatchedMultiply

open Sys2Proof Sys2Proof.Machine

/-- Settles O35: the checks of R152 pass, and the effect writes the products over the destination. -/
theorem bmul64LeavesSixtyFourTowerProducts : Obligations.Bmul64LeavesSixtyFourTowerProducts := by
  intro s dst a b hf ha hb hdst hcleara hclearb
  have hc := bmul64Cause_eq_none_of_disjoint ha hb hdst hcleara hclearb
  exact ⟨_, exec_completes hf hc, writeView_eq .., fun e he => readBlock_instrEffect_bmul64 s dst a b he,
    fun x hx => instrEffect_readBlock_of_not_writesBlock hx⟩

/-- Settles O36: the function is supplied by its formula, which has its values. -/
theorem bmul64LeavesTheValuesOfAnySuppliedFunction :
    Obligations.Bmul64LeavesTheValuesOfAnySuppliedFunction := by
  refine fun F => ⟨.formula (formulaOf F), fun s dst a b hT hf ha hb hdst hcleara hclearb => ?_⟩
  obtain ⟨t, ht, hmem, hproducts, hframe⟩ :=
    bmul64LeavesSixtyFourTowerProducts s dst a b hf ha hb hdst hcleara hclearb
  refine ⟨t, ht, hmem, fun e he => ?_, hframe⟩
  rw [hproducts e he, towerMul128_formula _ _ hT, evalFormula_formulaOf]

/-- Settles O37: the checks of all commands and the effects of all but `BMUL64` leave the product unread. -/
theorem towerProductIsReadByBmul64Alone : Obligations.TowerProductIsReadByBmul64Alone := by
  refine ⟨fun c d x y h => towerMul128_congr h x y, fun s t i T hi ht => ?others,
    fun s t u dst a b T ht hu => ?bmul64⟩
  case others =>
    rw [exec_keeps_cfg ht]
    exact exec_withConfig (instrCause_withTower ..) (instrEffect_withTower hi T) ht
  case bmul64 =>
    have hc := instrCause_withTower s.cfg T (.bmul64 dst a b)
    rw [exec_keeps_cfg ht]
    refine ⟨?memAlone, fun hft => ?halted⟩
    case memAlone =>
      rcases exec_withConfig_cases hc ht hu with rfl | ⟨rfl, rfl⟩
      · rfl
      · exact instrEffect_bmul64_withConfig ..
    case halted =>
      rw [exec_withConfig_of_fault hc ht hft] at hu
      obtain rfl := Host.Outcome.next.inj hu
      rfl

end Sys2Proof.Proofs.BatchedMultiply
end

section
/-! SUPPORT. The order of the operand checks (60_exceptions.md R162), one equation per check function: the first
condition that holds gives the cause. -/

namespace Sys2Proof.Machine

/-- A check comes before those after it (R162). -/
theorem firstCause_cons (b : Bool) (x : Cause) (l : List (Bool × Cause)) :
    firstCause ((b, x) :: l) = if b then some x else firstCause l := by
  cases b <;> rfl

theorem firstCause_nil : firstCause [] = none := rfl

@[simp] theorem direct_base (f : Field) (n : Nat) : (direct f n).base = f.toNat := rfl
@[simp] theorem direct_size (f : Field) (n : Nat) : (direct f n).size = n := rfl
@[simp] theorem span_base (w : WordWidth) (a st : Nat) : (span w a st).base = a := rfl
@[simp] theorem span_size (w : WordWidth) (a st : Nat) : (span w a st).size = (w.bits - 1) * st + 1 := rfl

theorem not_inRange_iff (r : Region) (n : Nat) : (!r.inRange n) = true ↔ n < r.base + r.size := by
  rw [Bool.not_eq_true', ← Bool.not_eq_true, inRange_iff, Nat.not_le]

theorem not_inRange_and_iff (r q : Region) (n : Nat) : (!(r.inRange n && q.inRange n)) = true ↔
    n < r.base + r.size ∨ n < q.base + q.size := by
  rw [Bool.not_and, Bool.or_eq_true, not_inRange_iff, not_inRange_iff]

theorem not_inRange_and_and_iff (r q p : Region) (n : Nat) :
    (!(r.inRange n && q.inRange n && p.inRange n)) = true ↔
      n < r.base + r.size ∨ n < q.base + q.size ∨ n < p.base + p.size := by
  rw [Bool.not_and, Bool.or_eq_true, not_inRange_and_iff, not_inRange_iff, or_assoc]

section Checks

variable (c : Config)

/-- R85: stride, then range. -/
theorem trnCause_eq (base stride : Field) : trnCause c base stride =
    if stride = 0 then some .badStride
    else if c.memBlocks < base.toNat + (c.width.bits - 1) * stride.toNat + 1 then some .addrRange
    else none := by
  have hstride : stride.toNat = 0 ↔ stride = 0 := BitVec.toNat_inj (y := 0#16)
  simp only [trnCause, firstCause_cons, firstCause_nil, decide_eq_true_eq, hstride, not_inRange_iff, span_base,
    span_size, Nat.add_assoc]

/-- R87: the checks of `TRNR` are those of `TRN`. -/
theorem trnrCause_eq_trnCause (base stride : Field) : trnrCause c base stride = trnCause c base stride := rfl

/-- R86: stride, then range, then overlap. -/
theorem trndCause_eq (dst src stride : Field) : trndCause c dst src stride =
    if stride = 0 then some .badStride
    else if c.memBlocks < src.toNat + (c.width.bits - 1) * stride.toNat + 1 ∨
      c.memBlocks < dst.toNat + c.width.bits then some .addrRange
    else if (direct dst c.width.bits).overlaps (span c.width src.toNat stride.toNat) then some .overlap
    else none := by
  have hstride : stride.toNat = 0 ↔ stride = 0 := BitVec.toNat_inj (y := 0#16)
  simp only [trndCause, firstCause_cons, firstCause_nil, decide_eq_true_eq, hstride, not_inRange_and_iff,
    span_base, span_size, direct_base, direct_size, Nat.add_assoc]

/-- R102, R103: range, then overlap. -/
theorem copyCause_eq (dst src : Field) (n : Nat) : copyCause c dst src n =
    if c.memBlocks < src.toNat + n ∨ c.memBlocks < dst.toNat + n then some .addrRange
    else if (direct dst n).overlaps (direct src n) then some .overlap
    else none := by
  simp only [copyCause, firstCause_cons, firstCause_nil, not_inRange_and_iff, direct_base, direct_size]

/-- R152: range, then overlap with either source. -/
theorem bmul64Cause_eq (dst a b : Field) : bmul64Cause c dst a b =
    if c.memBlocks < a.toNat + 64 ∨ c.memBlocks < b.toNat + 64 ∨ c.memBlocks < dst.toNat + 64 then
      some .addrRange
    else if (direct dst 64).overlaps (direct a 64) ∨ (direct dst 64).overlaps (direct b 64) then
      some .overlap
    else none := by
  simp only [bmul64Cause, firstCause_cons, firstCause_nil, not_inRange_and_and_iff, Bool.or_eq_true,
    direct_base, direct_size]

/-- R134, R138: range, then `dst = src`. -/
theorem laneCopyCause_eq (dst src : Field) : laneCopyCause c dst src =
    if c.memBlocks ≤ src.toNat ∨ c.memBlocks ≤ dst.toNat then some .addrRange
    else if dst = src then some .overlap
    else none := by
  simp only [laneCopyCause, firstCause_cons, firstCause_nil, not_inRange_and_iff, direct_base, direct_size,
    Nat.lt_succ_iff, decide_eq_true_eq, BitVec.toNat_inj]

/-- R137: range, then `dst = a` or `dst = b`. -/
theorem pmulCause_eq (dst a b : Field) : pmulCause c dst a b =
    if c.memBlocks ≤ a.toNat ∨ c.memBlocks ≤ b.toNat ∨ c.memBlocks ≤ dst.toNat then some .addrRange
    else if dst = a ∨ dst = b then some .overlap
    else none := by
  simp only [pmulCause, firstCause_cons, firstCause_nil, not_inRange_and_and_iff, direct_base, direct_size,
    Nat.lt_succ_iff, Bool.or_eq_true, decide_eq_true_eq, BitVec.toNat_inj]

end Checks

end Sys2Proof.Machine
end

section
/-! SUPPORT. What `ISSUE` does by the state of the block and the fault of the word (60_exceptions.md R163,
R164), and what a halted block keeps along a run. -/

namespace Sys2Proof.Machine

variable {s t : State} {cw : Command}

theorem exec_halted (hf : s.fault = true) (i : Instr) : exec i s = .next s := by
  rw [exec_eq, command_halted hf]

theorem issue_halted (hf : s.fault = true) (cw : Command) : issue cw s = .next s := by
  cases hd : decode cw with
  | error e => rw [issue_illegal hd, if_pos hf]
  | ok i => rw [issue_ok hd, exec_halted hf]

/-- The word recorded is the word as issued, since the word of the decoded command is that word (log 11). -/
theorem issue_faults {c : Cause} (hf : s.fault = false) (hc : wordCause s.cfg cw = some c) :
    issue cw s = .next (s.raiseFault c cw) := by
  cases hd : decode cw with
  | error e =>
    rw [wordCause_error _ hd] at hc
    rw [issue_error hd, hc, command_faults hf]
  | ok i =>
    rw [wordCause_ok _ hd] at hc
    rw [issue_ok hd, exec_faults hf hc, ← eq_encode_of_decode hd]

theorem issue_completes (hf : s.fault = false) (hc : wordCause s.cfg cw = none) :
    ∃ i, issue cw s = .next (instrEffect i s) := by
  cases hd : decode cw with
  | error e =>
    rw [wordCause_error _ hd] at hc
    cases hc
  | ok i =>
    rw [wordCause_ok _ hd] at hc
    exact ⟨i, (issue_ok hd s).trans (exec_completes hf hc)⟩

/-- A running block faults exactly by the fault of the word (R160). -/
theorem issue_fault_eq (hf : s.fault = false) (h : issue cw s = .next t) :
    t.fault = (wordCause s.cfg cw).isSome := by
  cases hc : wordCause s.cfg cw with
  | some c =>
    rw [issue_faults hf hc] at h
    exact Host.Outcome.next.inj h ▸ rfl
  | none =>
    obtain ⟨i, hi⟩ := issue_completes hf hc
    rw [hi] at h
    exact Host.Outcome.next.inj h ▸ (instrEffect_fault i s).trans hf

/-- `t` is halted, with the cause, the command word and the scalar result that `s` has. -/
def State.KeepsHalt (s t : State) : Prop :=
  t.GoneWrong ∧ t.cause = s.cause ∧ t.fcmd = s.fcmd ∧ t.sres = s.sres

theorem State.KeepsHalt.trans {u : State} (h : s.KeepsHalt u) (h' : u.KeepsHalt t) : s.KeepsHalt t := by
  obtain ⟨_, hcause, hfcmd, hsres⟩ := h
  obtain ⟨hwrong, hcause', hfcmd', hsres'⟩ := h'
  exact ⟨hwrong, hcause'.trans hcause, hfcmd'.trans hfcmd, hsres'.trans hsres⟩

/-- No move but `RESET` leaves the halt (R164, R165). -/
theorem makeMove_keepsHalt {m : HostMove} (hs : s.GoneWrong) (hm : m ≠ .reset)
    (h : makeMove m s = .next t) : s.KeepsHalt t := by
  rcases makeMove_cases h with ⟨cw, rfl, hi⟩ | ⟨a, v, _, _, rfl⟩ | ⟨r, _, rfl⟩ | ⟨rfl, _⟩
  · rw [issue_halted hs] at hi
    cases hi
    exact ⟨hs, rfl, rfl, rfl⟩
  · exact ⟨hs, rfl, rfl, rfl⟩
  · exact ⟨hs, rfl, rfl, rfl⟩
  · exact absurd rfl hm

theorem step_keepsHalt (hs : s.GoneWrong) (hm : .reset ∉ s.moves) (h : step s = .next t) :
    s.KeepsHalt t := by
  cases hmoves : s.moves with
  | nil =>
    rw [step_idle hmoves] at h
    cases h
    exact ⟨hs, rfl, rfl, rfl⟩
  | cons m rest =>
    rw [step_cons hmoves] at h
    rw [hmoves] at hm
    exact makeMove_keepsHalt (s := { s with moves := rest }) hs (List.ne_of_not_mem_cons hm).symm h

/-- A step makes no new move wait. -/
theorem step_moves_subset (h : step s = .next t) : t.moves ⊆ s.moves := by
  obtain ⟨_, hmoves⟩ := Proofs.BlockState.stepKeepsTheConfigurationAndTakesOneMove s t h
  rw [hmoves]
  exact List.tail_subset s.moves

theorem core_run_keepsHalt (n : Nat) (hs : s.GoneWrong) (hm : .reset ∉ s.moves)
    (h : Sys2Proof.core.run n s = .next t) : s.KeepsHalt t := by
  induction n generalizing s with
  | zero =>
    cases h
    exact ⟨hs, rfl, rfl, rfl⟩
  | succ n ih =>
    obtain ⟨u, hu, hrun⟩ := step_of_core_run h
    have hkeep := step_keepsHalt hs hm hu
    exact hkeep.trans (ih hkeep.1 (fun hmem => hm (step_moves_subset hu hmem)) hrun)

/-- A halted block takes every move that the spec has (R164, R35). -/
theorem makeMove_answers_of_halted {m : HostMove} (hs : s.fault = true)
    (hwrite : ∀ a v, m = .hwr a v → a < s.cfg.memBlocks)
    (hread : ∀ a, m = .hrd a → a < s.cfg.memBlocks) : ∃ t, makeMove m s = .next t := by
  cases m with
  | issue cw => exact ⟨s, issue_halted hs cw⟩
  | hwr a v => exact ⟨_, if_pos (hwrite a v rfl)⟩
  | hrd a => exact ⟨_, if_pos (hread a rfl)⟩
  | hstatus => exact ⟨_, rfl⟩
  | hfcmd => exact ⟨_, rfl⟩
  | hsres => exact ⟨_, rfl⟩
  | reset => exact ⟨_, rfl⟩

end Sys2Proof.Machine
end

section
/-! PROOFS. The statements about faults of 60_exceptions.md. -/

namespace Sys2Proof.Proofs.Exceptions

open Sys2Proof Sys2Proof.Machine

/-- Settles O19, by induction on the length of the run: no waiting move is a `RESET`, and each other move keeps
the halt. -/
theorem haltIsStickyAlongEveryRun : Obligations.HaltIsStickyAlongEveryRun :=
  fun n _ _ => core_run_keepsHalt n

/-- Settles O17: an illegal word, or a command whose checks fail, raises the fault of the word. -/
theorem faultEntryRecordsCauseAndWordOnly : Obligations.FaultEntryRecordsCauseAndWordOnly :=
  fun _ _ _ => issue_faults

/-- Settles O18: every command is ignored, and each other move but `RESET` keeps the halt. -/
theorem haltedBlockIgnoresEveryCommand : Obligations.HaltedBlockIgnoresEveryCommand := by
  refine ⟨fun s cw hs => issue_halted hs cw, fun s i hs => exec_halted hs i,
    fun s m hs => makeMove_answers_of_halted hs, fun s t m hs h ht => ?resetAlone⟩
  case resetAlone =>
    by_contra hm
    have hwrong : t.fault = true := (makeMove_keepsHalt hs hm h).1
    simp [ht] at hwrong

/-- Settles O20: the fault is that of the word in the configuration, which the two blocks share. -/
theorem faultIsDecidedByWordAndConfigurationAlone :
    Obligations.FaultIsDecidedByWordAndConfigurationAlone := by
  intro s₁ s₂ t₁ t₂ cw hcfg hf₁ hf₂ h₁ h₂
  have ht₁ := issue_fault_eq hf₁ h₁
  refine ⟨ht₁.trans (hcfg ▸ (issue_fault_eq hf₂ h₂).symm), fun ht => ?recorded⟩
  case recorded =>
    obtain ⟨c, hc⟩ := Option.isSome_iff_exists.mp (ht₁.symm.trans ht)
    cases h₁.symm.trans (issue_faults hf₁ hc)
    cases h₂.symm.trans (issue_faults hf₂ (hcfg ▸ hc))
    exact ⟨rfl, rfl⟩

/-- Settles O22: the checks of R85, R86 and R87 in the order of R162. -/
theorem transposeCommandsFaultInPriorityOrder : Obligations.TransposeCommandsFaultInPriorityOrder := by
  refine ⟨fun s base stride hf hst => ?stride, fun s base stride hf hst hout => ?range,
    fun s dst src stride hf hst => ?trndStride, fun s dst src stride hf hst hout => ?trndRange,
    fun s dst src stride hf hst hsrc hdst hmeet => ?trndOverlap⟩
  case stride =>
    have hc : trnCause s.cfg base stride = some .badStride := by rw [trnCause_eq, if_pos hst]
    exact ⟨exec_faults (i := .trn base stride) hf hc,
      exec_faults (i := .trnr base stride) hf ((trnrCause_eq_trnCause ..).trans hc)⟩
  case range =>
    have hc : trnCause s.cfg base stride = some .addrRange := by
      rw [trnCause_eq, if_neg hst, if_pos hout]
    exact ⟨exec_faults (i := .trn base stride) hf hc,
      exec_faults (i := .trnr base stride) hf ((trnrCause_eq_trnCause ..).trans hc)⟩
  case trndStride =>
    have hc : trndCause s.cfg dst src stride = some .badStride := by rw [trndCause_eq, if_pos hst]
    exact exec_faults (i := .trnd dst src stride) hf hc
  case trndRange =>
    have hc : trndCause s.cfg dst src stride = some .addrRange := by
      rw [trndCause_eq, if_neg hst, if_pos hout]
    exact exec_faults (i := .trnd dst src stride) hf hc
  case trndOverlap =>
    have hc : trndCause s.cfg dst src stride = some .overlap := by
      rw [trndCause_eq, if_neg hst, if_neg (by omega), if_pos ((overlaps_iff_exists_mem _ _).mpr hmeet)]
    exact exec_faults (i := .trnd dst src stride) hf hc

/-- Settles O23: the checks of R102, R103 and R152 in the order of R162. -/
theorem batchCommandsFaultInPriorityOrder : Obligations.BatchCommandsFaultInPriorityOrder := by
  refine ⟨fun s dst src hf hout => ?range, fun s dst src hf hsrc hdst hmeet => ?overlap,
    fun s dst a b hf hout => ?bmul64Range, fun s dst a b hf ha hb hdst hmeet => ?bmul64Overlap⟩
  case range =>
    have hc : copyCause s.cfg dst src 16 = some .addrRange := by rw [copyCause_eq, if_pos hout]
    exact ⟨exec_faults (i := .bsl dst src) hf hc, exec_faults (i := .ubsl dst src) hf hc⟩
  case overlap =>
    have hc : copyCause s.cfg dst src 16 = some .overlap := by
      rw [copyCause_eq, if_neg (by omega), if_pos ((overlaps_iff_exists_mem _ _).mpr hmeet)]
    exact ⟨exec_faults (i := .bsl dst src) hf hc, exec_faults (i := .ubsl dst src) hf hc⟩
  case bmul64Range =>
    have hc : bmul64Cause s.cfg dst a b = some .addrRange := by rw [bmul64Cause_eq, if_pos hout]
    exact exec_faults (i := .bmul64 dst a b) hf hc
  case bmul64Overlap =>
    obtain ⟨x, hx, hsource⟩ := hmeet
    have hmeets (f : Field) (hxf : f.toNat ≤ x ∧ x < f.toNat + 64) :
        (direct dst 64).overlaps (direct f 64) = true := (overlaps_iff_exists_mem _ _).mpr ⟨x, hx, hxf⟩
    have hc : bmul64Cause s.cfg dst a b = some .overlap := by
      rw [bmul64Cause_eq, if_neg (by omega), if_pos (hsource.imp (hmeets a) (hmeets b))]
    exact exec_faults (i := .bmul64 dst a b) hf hc

/-- Settles O24: the checks of R134, R137 and R138 in the order of R162. -/
theorem laneCommandsFaultInPriorityOrder : Obligations.LaneCommandsFaultInPriorityOrder := by
  refine ⟨fun s dst src table hf hout => ?range, fun s dst src table hf hsrc heq => ?overlap,
    fun s dst a b hf hout => ?pmulRange, fun s dst a b hf ha hb heq => ?pmulOverlap⟩
  case range =>
    have hc : laneCopyCause s.cfg dst src = some .addrRange := by rw [laneCopyCause_eq, if_pos hout]
    exact ⟨exec_faults (i := .llkup dst src table) hf hc, exec_faults (i := .pmulc dst src) hf hc⟩
  case overlap =>
    have hin : dst.toNat < s.cfg.memBlocks := heq ▸ hsrc
    have hc : laneCopyCause s.cfg dst src = some .overlap := by
      rw [laneCopyCause_eq, if_neg (by omega), if_pos heq]
    exact ⟨exec_faults (i := .llkup dst src table) hf hc, exec_faults (i := .pmulc dst src) hf hc⟩
  case pmulRange =>
    have hc : pmulCause s.cfg dst a b = some .addrRange := by rw [pmulCause_eq, if_pos hout]
    exact exec_faults (i := .pmul dst a b) hf hc
  case pmulOverlap =>
    have hin : dst.toNat < s.cfg.memBlocks := by rcases heq with rfl | rfl <;> assumption
    have hc : pmulCause s.cfg dst a b = some .overlap := by
      rw [pmulCause_eq, if_neg (by omega), if_pos heq]
    exact exec_faults (i := .pmul dst a b) hf hc

end Sys2Proof.Proofs.Exceptions
end

section
/-! PROOFS. The `RESET` move of 70_reset_and_hazards.md R180. -/

namespace Sys2Proof.Proofs.Reset

open Sys2Proof Sys2Proof.Machine

/-- `STATUS` shows `FAULT` and `CAUSE` and nothing else (R26), and `RESET` clears both. -/
@[simp] theorem doReset_status (s : State) : s.doReset.status = 0 := by
  rw [State.status, doReset_fault, doReset_cause]
  decide

/-- `RESET` is taken whether the block is running or halted (R165). -/
theorem step_reset {s : State} {rest : List HostMove} (h : s.moves = .reset :: rest) :
    step s = .next (State.doReset { s with moves := rest }) :=
  step_cons h

/-- Settles O10, field by field of the state after `RESET`. -/
theorem resetMoveRestoresTheResetValues : Obligations.ResetMoveRestoresTheResetValues :=
  fun _ _ h => ⟨_, step_reset h, doReset_fault _, doReset_cause _, doReset_fcmd _, doReset_sres _,
    doReset_status _, doReset_cfg _, doReset_moves _, doReset_replies _, doReset_readBlock _⟩

end Sys2Proof.Proofs.Reset
end
